-- ==== Sys2Proof/Config.lean ====
section
/-! DEFINITION. What an implementation fixes: the one elaboration-time parameter KMAX and every width derived from it
(spec/00_scope.md R5, D2), at least 2: a statement for every KMAX says so where it matters. Each width is a function of `kmax`; the machine the host runs is the spec's reference
instance `refKmax` (log entry 1). The spec leaves no value open, so there is no free value here. -/

namespace Sys2Proof.Config

/-- The spec's reference instance, the one `opcode_table.json` is written for (R5, R57). DESIGN CHOICE, log entry 1. -/
abbrev refKmax : Nat := 4

/-- `TMAX`: largest codeword length, width of `arg`, `RES` and `CWC` (R5). -/
abbrev tmax (kmax : Nat) : Nat := 2 ^ kmax - 1

/-- `NMAX`: largest data width that BUILD accepts (R5). -/
abbrev nmax (kmax : Nat) : Nat := tmax kmax - kmax

/-- `LW`: width of the `len` field (R5). -/
abbrev lw (kmax : Nat) : Nat := kmax + 1

/-- `KW`: width of register `LK` (R5). -/
abbrev kw (kmax : Nat) : Nat := Nat.log2 kmax + 1

/-- `CMDW`: width of the command word (R5, R45). -/
abbrev cmdw (kmax : Nat) : Nat := 2 + lw kmax + tmax kmax

end Sys2Proof.Config
end

