-- ==== Sys2Proof/Word.lean ====
section
/-! DEFINITION. The two word types: a codeword or data unit as the unbounded unsigned integer of R7 and R33 (its length
is the current layout's, so it is no fixed width), and the command word on the `cmd` port (R45). -/

namespace Sys2Proof

/-- A codeword, a data unit or a syndrome inside the codec: position `i` is bit `i - 1` (R7, R33, R35). -/
abbrev Word := Nat

/-- A command word as it stands on the `cmd` port, `CMDW` bits, transferred whole (R37, R45). -/
abbrev CmdWord (kmax : Nat) := BitVec (Config.cmdw kmax)

end Sys2Proof
end

