-- ==== Sys2Proof/Syntax.lean ====
section
/-! DEFINITION. The commands, one constructor per row of spec/opcode_table.json (R47). -/

namespace Sys2Proof

/-- A command with its two fields read as unsigned integers, `len` then `arg` (R46). A field a command ignores is kept,
so that no bit of a command word is lost (R51, R52). -/
inductive Instr where
  /-- `BUILD n`, op = 0b00, with n = `arg` (R48, R73). -/
  | build (len arg : Nat)
  /-- `ENCODE d`, op = 0b01, with d = `arg` (R49, R96). -/
  | encode (len arg : Nat)
  /-- `DECODE w, L`, op = 0b10, with w = `arg` and L = `len` (R50, R116). -/
  | decode (len arg : Nat)
  /-- The reserved opcode, op = 0b11 (R52). -/
  | reserved (len arg : Nat)
  deriving DecidableEq, Repr

end Sys2Proof
end

