-- ==== Sys2Proof/WellFormed.lean ====
section
/-! DEFINITION. Which commands fit the command word of a block with parameter `kmax`: the two field widths of R46, the
assembler's check of R55. -/

namespace Sys2Proof

/-- `len` fits its `LW` bits (R46, R55). -/
def lenFits (kmax len : Nat) : Bool := decide (len < 2 ^ Config.lw kmax)

/-- `arg` fits its `TMAX` bits (R46, R55). -/
def argFits (kmax arg : Nat) : Bool := decide (arg < 2 ^ Config.tmax kmax)

/-- A command both of whose fields fit; no other operand value is illegal (R52). -/
def wellFormed (kmax : Nat) : Instr → Bool
  | .build len arg => lenFits kmax len && argFits kmax arg
  | .encode len arg => lenFits kmax len && argFits kmax arg
  | .decode len arg => lenFits kmax len && argFits kmax arg
  | .reserved len arg => lenFits kmax len && argFits kmax arg

end Sys2Proof
end

