-- ==== Sys2Proof/Decode.lean ====
section
/-! DEFINITION. The command decoder, the encoder, and one word of each row of the opcode table written out from its
encoding (spec/30_encoding.md). -/

namespace Sys2Proof

/-- Why a number is no command word. -/
inductive DecodeError where
  /-- The number does not fit the `CMDW` bits of the `cmd` port (R45). -/
  | widerThanCommandWord (value : Nat)
  deriving DecidableEq, Repr

/-- Field `op`, the two most significant bits (R46). -/
def opField (kmax : Nat) (w : CmdWord kmax) : Nat := w.toNat >>> (Config.tmax kmax + Config.lw kmax)

/-- Field `len` (R46). -/
def lenField (kmax : Nat) (w : CmdWord kmax) : Nat := w.toNat >>> Config.tmax kmax % 2 ^ Config.lw kmax

/-- Field `arg` (R46). -/
def argField (kmax : Nat) (w : CmdWord kmax) : Nat := w.toNat % 2 ^ Config.tmax kmax

/-- The command a command word stands for: total, since every one of the `2^CMDW` words has a meaning (R47, R52). The
last case is op = 0b11, the only value of the two bits that is left. -/
def decodeWord (kmax : Nat) (w : CmdWord kmax) : Instr :=
  match opField kmax w with
  | 0 => .build (lenField kmax w) (argField kmax w)
  | 1 => .encode (lenField kmax w) (argField kmax w)
  | 2 => .decode (lenField kmax w) (argField kmax w)
  | _ => .reserved (lenField kmax w) (argField kmax w)

/-- Decoding of any number; one that does not fit the `cmd` port is rejected by name (R45). -/
def decodeNumber (kmax v : Nat) : Except DecodeError Instr :=
  if v < 2 ^ Config.cmdw kmax then .ok (decodeWord kmax (BitVec.ofNat _ v))
  else .error (.widerThanCommandWord v)

/-- The host's view of the decoder: the number given by the low `nbits` bits of `w`, numbered as the opcode table numbers
them. The bus carries the word whole and there is no byte order (R36, R37), so no bytes are laid out (log entry 6). -/
def decodeTableWord (nbits w : Nat) : Option Instr :=
  match decodeNumber Config.refKmax (w % 2 ^ nbits) with
  | .ok i => some i
  | .error _ => none

/-- The value of field `op` (R47). -/
def opcode : Instr → Nat
  | .build _ _ => 0
  | .encode _ _ => 1
  | .decode _ _ => 2
  | .reserved _ _ => 3

/-- The value of field `len`. -/
def lenOf : Instr → Nat
  | .build len _ => len
  | .encode len _ => len
  | .decode len _ => len
  | .reserved len _ => len

/-- The value of field `arg`. -/
def argOf : Instr → Nat
  | .build _ arg => arg
  | .encode _ arg => arg
  | .decode _ arg => arg
  | .reserved _ arg => arg

/-- The command word as an integer, `(op << (TMAX + LW)) | (len << TMAX) | arg` (R46). -/
def encodeNumber (kmax : Nat) (i : Instr) : Nat :=
  opcode i <<< (Config.tmax kmax + Config.lw kmax) ||| lenOf i <<< Config.tmax kmax ||| argOf i

/-- The command word of a command that fits (R46). -/
def encodeWord (kmax : Nat) (i : Instr) : CmdWord kmax := BitVec.ofNat _ (encodeNumber kmax i)

/-- `00 01001 000000000000001`: BUILD with n = 1 and the ignored len = 9. -/
theorem decode_build_bits :
    decodeWord Config.refKmax 0b00_01001_000000000000001#22 = .build 9 1 := by decide

/-- `01 00000 000000001100001`: ENCODE 97. -/
theorem decode_encode_bits :
    decodeWord Config.refKmax 0b01_00000_000000001100001#22 = .encode 0 97 := by decide

/-- `10 01111 000010000000110`: DECODE of the 15-bit word 000010000000110, whose positions 2, 3 and 11 are set. -/
theorem decode_decode_bits :
    decodeWord Config.refKmax 0b10_01111_000010000000110#22 = .decode 15 0x0406 := by decide

/-- `11 10101 011110011011110`: the reserved opcode with arbitrary fields. -/
theorem decode_reserved_bits :
    decodeWord Config.refKmax 0b11_10101_011110011011110#22 = .reserved 21 0x3CDE := by decide

end Sys2Proof
end

