-- ==== Sys2Proof/Machine/State.lean ====
section
/-! DEFINITION. The block's state as plain data (spec/10_state.md), the state after reset (R26), and the two reasons a
step could stop. -/

namespace Sys2Proof.Machine

/-- The outcome held in register `ST`; codes 6 and 7 do not exist (R18, R130; 93_implementation_defined.md row 14). The
code of each is `Status.code`. -/
inductive Status where
  /-- The command succeeded; also the value after reset (R18, R26). -/
  | ok
  /-- DECODE of more bits than the layout's codeword has (R125). -/
  | inputTooLong
  /-- ENCODE of a data unit wider than the layout's (R126). -/
  | inputWidthMismatch
  /-- ENCODE or DECODE before any successful BUILD (R128). -/
  | noLayout
  /-- BUILD of a width above `NMAX` (R127). -/
  | widthUnsupported
  /-- The reserved opcode (R129). -/
  | illegalOp
  deriving DecidableEq, Repr

/-- The eight architectural registers of a block with parameter `kmax` (R12 to R15, R18 to R21). -/
structure Regs (kmax : Nat) where
  /-- `LV`, layout valid (R12). -/
  lv : Bool
  /-- `LN`, layout data width n (R13). -/
  ln : BitVec kmax
  /-- `LK`, layout parity count k (R14). -/
  lk : BitVec (Config.kw kmax)
  /-- `LT`, layout codeword length T (R15). -/
  lt : BitVec kmax
  /-- `ST`, status of the last command (R18). -/
  st : Status
  /-- `RES`, result of the last command (R19). -/
  res : BitVec (Config.tmax kmax)
  /-- `SYN`, syndrome of the last command (R20). -/
  syn : BitVec kmax
  /-- `CWC`, corrected codeword of the last command (R21). -/
  cwc : BitVec (Config.tmax kmax)
  deriving DecidableEq, Repr

/-- The registers after reset: all zero (R26). -/
def Regs.reset (kmax : Nat) : Regs kmax where
  lv := false
  ln := 0
  lk := 0
  lt := 0
  st := .ok
  res := 0
  syn := 0
  cwc := 0

/-- What a rising edge of `clk` samples: the host's pins (R31), and whether the block finishes the command in flight at
this edge. `finish` is the model's own: the latency LAT is left open (R162), so any edge may be the one (log entry 3). -/
structure Edge (kmax : Nat) where
  /-- Pin `rst`. -/
  rst : Bool
  /-- Pin `cmd_valid`. -/
  cmdValid : Bool
  /-- Pins `cmd`. -/
  cmd : CmdWord kmax
  /-- The command in flight, if there is one, completes here unless `rst` is 1. -/
  finish : Bool
  deriving DecidableEq, Repr

/-- The whole state of a block with parameter `kmax` (R5, R9). -/
structure Block (kmax : Nat) where
  /-- The eight architectural registers. -/
  regs : Regs kmax
  /-- The command accepted and not yet completed, if any: the hidden busy state (R24). -/
  inFlight : Option (CmdWord kmax)
  /-- `rsp_valid`: a command completed at the last edge (R39). -/
  rspValid : Bool
  /-- The coming rising edges, oldest first: the host's inputs (log entry 2). -/
  edges : List (Edge kmax)
  deriving DecidableEq, Repr

/-- The block after reset (R26, R150), with a host that offers nothing (log entry 2). -/
def Block.reset (kmax : Nat) : Block kmax where
  regs := Regs.reset kmax
  inFlight := none
  rspValid := false
  edges := []

/-- The state of the machine the host runs: the block of the reference size (log entry 1). -/
structure State extends Block Config.refKmax where
  deriving DecidableEq, Repr

/-- The state after reset (R26, R150). -/
def State.reset : State where
  toBlock := Block.reset Config.refKmax

/-- Reasons the machine stops with a fault. The type has no constructor: nothing in the block is stuck, every error is a
recoverable status that a command completes with (R52, R131, R134; 93_implementation_defined.md, end of section 2). So no
meaning raises one, and there is nothing that could be unsafe. -/
inductive Fault where
  deriving DecidableEq, Repr

/-- Reasons the machine gives a command no meaning. -/
inductive Refusal where
  /-- Raised only by an arm of `exec` for a command without a meaning; no arm raises it now. Safe: the machine stops. -/
  | notModelled (mnemonic : String)
  deriving DecidableEq, Repr

end Sys2Proof.Machine
end

