-- ==== Sys2Proof/Machine/Ops.lean ====
section
/-! DEFINITION. The shared operations: bits of words by position (R7), the one write of the response registers (R22), the
one `raise` (R131), the one write of the layout registers (R73), completion (R38, R39), and what a clock edge does to the
handshake (R37 to R39, R150 to R152). The block has no return from an error: an error is not sticky (R134). -/

namespace Sys2Proof.Machine

/-- `pos(w, i)`: the bit at codeword position `i`, `1 ≤ i` (R7, R33). -/
def pos (w : Word) (i : Nat) : Bool := w.testBit (i - 1)

/-- `flip(w, i) = w ^ (1 << (i - 1))` (R7). -/
def flip (w : Word) (i : Nat) : Word := w ^^^ 1 <<< (i - 1)

/-- `setpos(w, i, b)`: `w` with bit `i - 1` replaced by `b` (R7). -/
def setpos (w : Word) (i : Nat) (b : Bool) : Word := if pos w i = b then w else flip w i

/-- `mask(L) = 2^L - 1` (R7). -/
def mask (L : Nat) : Word := 2 ^ L - 1

/-- The slice `v[n-1:0]`, 0 when `n = 0` (R7). -/
def lowBits (v : Word) (n : Nat) : Word := v % 2 ^ n

/-- `XOR_{i ∈ S} f(i)`, false for the empty list (R7). -/
def xorOver (S : List Nat) (f : Nat → Bool) : Bool := S.foldl (fun acc i => acc ^^ f i) false

/-- The vector `v` with `v[b] = f b` for `b < n`, built by the loop `for b in 0 .. n-1: v[b] <- f b` from 0. -/
def collect (n : Nat) (f : Nat → Bool) : Word := (List.range n).foldl (fun v b => setpos v (b + 1) (f b)) 0

/-- `parity(v)`: the XOR of all bits of `v` (R7); no bit above `log2 v` is set. -/
def parity (v : Word) : Bool := xorOver (List.range (v.log2 + 1)) v.testBit

/-- Every command writes the four response registers together; values are zero-extended to the bus (R22, R43). -/
def Regs.respond {kmax : Nat} (r : Regs kmax) (st : Status) (res syn cwc : Word) : Regs kmax :=
  { r with st := st, res := BitVec.ofNat _ res, syn := BitVec.ofNat _ syn, cwc := BitVec.ofNat _ cwc }

/-- `raise E`: the status and no result; the layout registers stay (R131, R132). -/
def Regs.raise {kmax : Nat} (r : Regs kmax) (e : Status) : Regs kmax := r.respond e 0 0 0

/-- A successful BUILD replaces all four layout registers (R73, R74). -/
def Regs.setLayout {kmax : Nat} (r : Regs kmax) (n k T : Nat) : Regs kmax :=
  { r with lv := true, ln := BitVec.ofNat _ n, lk := BitVec.ofNat _ k, lt := BitVec.ofNat _ T }

section Handshake
variable {kmax : Nat}

/-- Completion: every register write of the command lands, the block is ready again, `rsp_valid` pulses (R38, R39, R131). -/
def Block.complete (b : Block kmax) (r : Regs kmax) : Block kmax :=
  { b with regs := r, inFlight := none, rspValid := true }

/-- An idle host: `rst = 0` and `cmd_valid = 0`; the block may finish (log entry 2). -/
def Edge.idle : Edge kmax where
  rst := false
  cmdValid := false
  cmd := 0
  finish := true

/-- The host offers the word `w` (R37). -/
def Edge.offer (w : CmdWord kmax) : Edge kmax := { Edge.idle (kmax := kmax) with cmdValid := true, cmd := w }

/-- The host asserts `rst` (R150). -/
def Edge.reset : Edge kmax := { Edge.idle (kmax := kmax) with rst := true }

/-- What the next rising edge samples; an exhausted host is idle (log entry 2). -/
def Block.edge (b : Block kmax) : Edge kmax := b.edges.headD Edge.idle

/-- The block with its next edge taken. -/
def Block.advance (b : Block kmax) : Block kmax := { b with edges := b.edges.tail }

/-- Reset: every register takes its reset value and a command in flight is dropped without a response (R150 to R152). -/
def Block.applyReset (b : Block kmax) : Block kmax :=
  { b with regs := Regs.reset kmax, inFlight := none, rspValid := false }

/-- Acceptance of a command word: the block becomes busy, nothing else changes (R37, R38). -/
def Block.accept (b : Block kmax) (w : CmdWord kmax) : Block kmax :=
  { b with inFlight := some w, rspValid := false }

/-- An edge at which nothing is accepted and nothing completes: every register holds (R38, R39, R141). -/
def Block.hold (b : Block kmax) : Block kmax := { b with rspValid := false }

/-- What a rising edge does. -/
inductive Event (kmax : Nat) where
  /-- Every register takes its reset value (R150). -/
  | reset
  /-- The command in flight completes (R38). -/
  | complete (w : CmdWord kmax)
  /-- The word on `cmd` is accepted (R37). -/
  | accept (w : CmdWord kmax)
  /-- Every register holds (R38). -/
  | hold
  deriving DecidableEq, Repr

/-- What the next rising edge does: reset wins (R151); otherwise a command in flight completes or keeps the block busy
(R38), and a block that is not busy accepts what the host offers (R37). -/
def Block.event (b : Block kmax) : Event kmax :=
  if b.edge.rst then .reset
  else
    match b.inFlight with
    | some w => if b.edge.finish then .complete w else .hold
    | none => if b.edge.cmdValid then .accept b.edge.cmd else .hold

end Handshake

/-- The output ports (R31); `cmd_ready` and `rsp_valid` are the handshake, the rest are registers. -/
structure Outputs (kmax : Nat) where
  cmdReady : Bool
  rspValid : Bool
  st : BitVec 3
  res : BitVec (Config.tmax kmax)
  syn : BitVec kmax
  cwc : BitVec (Config.tmax kmax)
  lv : BitVec 1
  ln : BitVec kmax
  lk : BitVec (Config.kw kmax)
  lt : BitVec kmax
  deriving DecidableEq, Repr

end Sys2Proof.Machine
end

