-- ==== Sys2Proof/Machine/Operands.lean ====
section
/-! DEFINITION. The operand of each command, assembled from the fields of its word (spec/30_encoding.md section 3). -/

namespace Sys2Proof.Machine

/-- BUILD: `n`, all `TMAX` bits of `arg`, unsigned (R48). -/
def dataWidthOperand (arg : Nat) : Nat := arg

/-- ENCODE: `d`, all `TMAX` bits of `arg`, unsigned (R49). -/
def dataUnitOperand (arg : Nat) : Word := arg

/-- DECODE: `L`, the number of bits supplied (R50, R105). -/
def lengthOperand (len : Nat) : Nat := len

/-- DECODE: the word to decode, `arg & mask(L)`; bits at index `L` and above are ignored (R50, R106). -/
def receivedWord (len arg : Nat) : Word := arg &&& mask len

end Sys2Proof.Machine
end

