-- ==== Sys2Proof/Machine/Flags.lean ====
section
/-! DEFINITION. The status codes (R18, R130), the four checks that can raise an error (R125 to R128), their order (R133),
and the output ports (R31). There are no condition codes (R23). -/

namespace Sys2Proof.Machine

/-- The value of each status on the port `st` (R18, R130). -/
def Status.code : Status → BitVec 3
  | .ok => 0
  | .inputTooLong => 1
  | .inputWidthMismatch => 2
  | .noLayout => 3
  | .widthUnsupported => 4
  | .illegalOp => 5

/-- BUILD's check: `n > NMAX` (R127). -/
def widthUnsupported (kmax n : Nat) : Bool := decide (Config.nmax kmax < n)

/-- The check ENCODE and DECODE make first: `LV = 0` (R128). -/
def noLayout {kmax : Nat} (r : Regs kmax) : Bool := !r.lv

/-- ENCODE's check: `d >> LN ≠ 0` (R126). -/
def inputWidthMismatch {kmax : Nat} (r : Regs kmax) (d : Word) : Bool := d >>> r.ln.toNat != 0

/-- DECODE's check: `L > LT` (R125). -/
def inputTooLong {kmax : Nat} (r : Regs kmax) (L : Nat) : Bool := decide (r.lt.toNat < L)

/-- The one error a command raises, if any: the first check that fails, in the order of R133. -/
def firstError (kmax : Nat) (i : Instr) (r : Regs kmax) : Option Status :=
  match i with
  | .reserved _ _ => some .illegalOp
  | .build _ arg => if widthUnsupported kmax (dataWidthOperand arg) then some .widthUnsupported else none
  | .encode _ arg =>
    if noLayout r then some .noLayout
    else if inputWidthMismatch r (dataUnitOperand arg) then some .inputWidthMismatch else none
  | .decode len _ =>
    if noLayout r then some .noLayout
    else if inputTooLong r (lengthOperand len) then some .inputTooLong else none

/-- The output ports show the registers continuously; reading them changes nothing (R31, R32); `cmd_ready` is 1 exactly
when no command is in flight (R37). -/
def Block.outputs {kmax : Nat} (b : Block kmax) : Outputs kmax where
  cmdReady := b.inFlight.isNone
  rspValid := b.rspValid
  st := b.regs.st.code
  res := b.regs.res
  syn := b.regs.syn
  cwc := b.regs.cwc
  lv := BitVec.ofBool b.regs.lv
  ln := b.regs.ln
  lk := b.regs.lk
  lt := b.regs.lt

end Sys2Proof.Machine
end

