-- ==== Sys2Proof/Machine/Layout.lean ====
section
/-! DEFINITION. The Layout unit and the BUILD command (spec/40_layout_build.md). Every function here is on natural numbers
and takes what it needs, so it is the same for every KMAX (R76). -/

namespace Sys2Proof.Machine

/-- The search `while 2^k < n + k + 1: k <- k + 1` from `k`, for at most `fuel` rounds (R60). -/
def searchParityCount (n : Nat) : Nat → Nat → Nat
  | 0, k => k
  | fuel + 1, k => if 2 ^ k < n + k + 1 then searchParityCount n fuel (k + 1) else k

/-- `K(n)`: the smallest `k` with `2^k ≥ n + k + 1`, searched from 0; it is at most `n + 1` (R60). -/
def parityCount (n : Nat) : Nat := searchParityCount n (n + 1) 0

/-- `T = 2^k - 1`, the full-length code, never a shortened one (R61). -/
def codewordLength (k : Nat) : Nat := 2 ^ k - 1

/-- `m = T - k`, the number of data positions (R62). -/
def dataCount (k : Nat) : Nat := codewordLength k - k

/-- `Digit(i, p)`: the coefficient of `2^p` in the position index (R64). -/
def digit (i p : Nat) : Bool := i.testBit p

/-- `isParity`: the index is a power of two (R65). -/
def isParity (i : Nat) : Bool := decide (1 ≤ i) && i &&& (i - 1) == 0

/-- `parityGroup`: `Group(2^p) = p`; unset for a data position (R66). -/
def parityGroup (i : Nat) : Option Nat := if isParity i then some i.log2 else none

/-- One record of the Layout's table, for a layout with `k` parity bits (R63 to R66). -/
structure BitPosition (k : Nat) where
  /-- The position, from 1 (R63). -/
  index : Nat
  /-- The index in exactly `k` binary digits, digit `p` being bit `p` (R64). -/
  binaryIndex : BitVec k
  /-- Whether the position holds a parity bit (R65). -/
  isParity : Bool
  /-- The parity check stored here, if any (R66). -/
  parityGroup : Option Nat
  deriving DecidableEq, Repr

/-- The record of position `i` (R63 to R66). -/
def bitPosition (k i : Nat) : BitPosition k where
  index := i
  binaryIndex := BitVec.ofNat k i
  isParity := isParity i
  parityGroup := parityGroup i

/-- The positions `1 .. T` in order (R61, R67). -/
def indices (k : Nat) : List Nat := (List.range (codewordLength k)).map (· + 1)

/-- `positions`: the Layout's table, a function of `k` alone, so it is not stored (R17, R67). -/
def positions (k : Nat) : List (BitPosition k) := (indices k).map (bitPosition k)

/-- The data positions in increasing order (R65, R68). -/
def dataPositions (k : Nat) : List Nat := (indices k).filter fun i => !isParity i

/-- `DataPos(k, j)`: the `(j+1)`-th data position; there is none for `j ≥ m` (R68). -/
def dataPos (k j : Nat) : Option Nat := (dataPositions k)[j]?

/-- `Cover(k, p)`: every position, parity and data alike, whose digit `p` is 1 (R69). -/
def cover (k p : Nat) : List Nat := (indices k).filter fun i => digit i p

/-- `CoverMask(k, p)`: bit `i - 1` set for each covered position (R69). -/
def coverMask (k p : Nat) : Word := collect (codewordLength k) fun b => digit (b + 1) p

/-- The entry `H[p][i]` of the parity-check matrix (R69). -/
def checkMatrix (p i : Nat) : Bool := digit i p

/-- BUILD `n` (R73). -/
def Regs.build {kmax : Nat} (arg : Nat) (r : Regs kmax) : Regs kmax :=
  let n := dataWidthOperand arg
  if widthUnsupported kmax n then r.raise .widthUnsupported
  else (r.setLayout n (parityCount n) (codewordLength (parityCount n))).respond .ok 0 0 0

/-- BUILD in the machine: `len` is ignored (R51, R73). -/
def execBuild (_len arg : Nat) (s : State) : Host.Outcome State Fault Refusal :=
  .next ⟨s.toBlock.complete (s.regs.build arg)⟩

end Sys2Proof.Machine
end

