-- ==== Sys2Proof/Machine/Syndrome.lean ====
section
/-! DEFINITION. The syndrome computation unit, shared by ENCODE and DECODE (spec/41_syndrome_unit.md), and the equivalent
forms of R82. -/

namespace Sys2Proof.Machine

/-- The parity of group `p` over the whole word, parity positions included (R80). -/
def groupParity (k : Nat) (w : Word) (p : Nat) : Bool := xorOver (cover k p) (pos w)

/-- `Syndrome(k, w)`: bit `p` is the parity of group `p` (R80, R81). -/
def syndrome (k : Nat) (w : Word) : Word := collect k (groupParity k w)

/-- Form (a) of R82: `s[p] = parity(w & CoverMask(k, p))`. -/
def syndromeByMask (k : Nat) (w : Word) : Word :=
  collect k fun p => parity (w &&& coverMask k p)

/-- Form (b) of R82: the XOR of the indices of the set positions. -/
def syndromeByIndex (k : Nat) (w : Word) : Word :=
  ((indices k).filter (pos w)).foldl (· ^^^ ·) 0

/-- Form (c) of R82: `s = H · w` over GF(2). -/
def syndromeByMatrix (k : Nat) (w : Word) : Word :=
  collect k fun p => xorOver (indices k) fun i => checkMatrix p i && pos w i

/-- A `T`-bit word is a codeword of the layout when its syndrome is 0 (R85). -/
def isCodeword (k : Nat) (w : Word) : Bool := decide (w < 2 ^ codewordLength k) && syndrome k w == 0

end Sys2Proof.Machine
end

