-- ==== Sys2Proof/Machine/Decoder.lean ====
section
/-! DEFINITION. The decoder and the DECODE command (spec/43_decode.md). -/

namespace Sys2Proof.Machine

/-- The correction step: a nonzero syndrome is the position to flip (R111). -/
def correct (w s : Word) : Word := if s = 0 then w else flip w s

/-- The data bit that the decoder reads at data position `j`. -/
def readDataBit (k : Nat) (c : Word) (j : Nat) : Bool :=
  match dataPos k j with
  | some i => pos c i
  | none => false

/-- `Gather(k, c')`: all data positions in increasing order, the first one least significant (R112). -/
def gather (k : Nat) (c : Word) : Word := collect (dataCount k) (readDataBit k c)

/-- The data unit returned: the low `n` bits of the gathered field; pad bits are dropped unchecked (R113, C4). -/
def resultUnit (k n : Nat) (c : Word) : Word := lowBits (gather k c) n

/-- DECODE `w, L` under the current layout (R116). -/
def Regs.decode {kmax : Nat} (len arg : Nat) (r : Regs kmax) : Regs kmax :=
  if noLayout r then r.raise .noLayout
  else if inputTooLong r (lengthOperand len) then r.raise .inputTooLong
  else
    let w := receivedWord (lengthOperand len) arg
    let s := syndrome r.lk.toNat w
    let c := correct w s
    r.respond .ok (resultUnit r.lk.toNat r.ln.toNat c) s c

/-- DECODE in the machine (R116). -/
def execDecode (len arg : Nat) (s : State) : Host.Outcome State Fault Refusal :=
  .next ⟨s.toBlock.complete (s.regs.decode len arg)⟩

end Sys2Proof.Machine
end

