-- ==== Sys2Proof/Machine/Encoder.lean ====
section
/-! DEFINITION. The encoder and the ENCODE command (spec/42_encode.md). -/

namespace Sys2Proof.Machine

/-- One round of `Scatter`: data bit `j` goes to the `(j+1)`-th data position. A layout that R16 allows has one for every
`j < n` (R62); elsewhere the bit is dropped (log entry 5). -/
def placeDataBit (k : Nat) (d u : Word) (j : Nat) : Word :=
  match dataPos k j with
  | some i => setpos u i (d.testBit j)
  | none => u

/-- `Scatter(k, n, d)`: the data bits from the least significant one into increasing data positions; pad and parity
positions stay 0 (R90). -/
def scatter (k n : Nat) (d : Word) : Word := (List.range n).foldl (placeDataBit k d) 0

/-- `par[p]` as the document computes it, over the data positions that group `p` covers (R91). -/
def parityBit (k : Nat) (u : Word) (p : Nat) : Bool :=
  xorOver ((cover k p).filter fun i => !isParity i) (pos u)

/-- Storing the parity bits: position `2^p` gets `par[p]` (R92). -/
def storeParity (k : Nat) (u par : Word) : Word :=
  (List.range k).foldl (fun c p => setpos c (2 ^ p) (par.testBit p)) u

/-- The codeword of the data unit `d`: scatter, parity by the shared syndrome unit (R93), store (R90 to R92). -/
def encodeUnit (k n : Nat) (d : Word) : Word :=
  let u := scatter k n d
  storeParity k u (syndrome k u)

/-- ENCODE `d` under the current layout (R96). -/
def Regs.encode {kmax : Nat} (arg : Nat) (r : Regs kmax) : Regs kmax :=
  let d := dataUnitOperand arg
  if noLayout r then r.raise .noLayout
  else if inputWidthMismatch r d then r.raise .inputWidthMismatch
  else r.respond .ok (encodeUnit r.lk.toNat r.ln.toNat d) 0 0

/-- ENCODE in the machine: `len` is ignored (R51, R96). -/
def execEncode (_len arg : Nat) (s : State) : Host.Outcome State Fault Refusal :=
  .next ⟨s.toBlock.complete (s.regs.encode arg)⟩

end Sys2Proof.Machine
end

