-- ==== Sys2Proof/Machine/Reserved.lean ====
section
/-! DEFINITION. The reserved opcode: it completes like any command, with `IllegalOp` (R52, R129). -/

namespace Sys2Proof.Machine

/-- The reserved opcode changes no layout register (R52, R129, R131). -/
def Regs.reserved {kmax : Nat} (r : Regs kmax) : Regs kmax := r.raise .illegalOp

/-- The reserved opcode in the machine: `len` and `arg` are ignored (R52). -/
def execReserved (_len _arg : Nat) (s : State) : Host.Outcome State Fault Refusal :=
  .next ⟨s.toBlock.complete s.regs.reserved⟩

end Sys2Proof.Machine
end

