-- ==== Sys2Proof/Machine/Dispatch.lean ====
section
/-! DEFINITION. One arm per command (R47). -/

namespace Sys2Proof.Machine

/-- The completion of a command (R38). -/
def exec (i : Instr) (s : State) : Host.Outcome State Fault Refusal :=
  match i with
  | .build len arg => Sys2Proof.Machine.execBuild len arg s
  | .encode len arg => Sys2Proof.Machine.execEncode len arg s
  | .decode len arg => Sys2Proof.Machine.execDecode len arg s
  | .reserved len arg => Sys2Proof.Machine.execReserved len arg s

end Sys2Proof.Machine
end

