-- ==== Sys2Proof/Machine/Step.lean ====
section
/-! DEFINITION. One step is one rising edge of `clk` (R31): what the edge does is `Block.event`, and a completion is the
`exec` of the decoded command word. -/

namespace Sys2Proof.Machine

/-- One rising edge. -/
def step (s : State) : Host.Outcome State Fault Refusal :=
  match s.toBlock.event with
  | .reset => .next ⟨s.toBlock.advance.applyReset⟩
  | .complete w => exec (decodeWord Config.refKmax w) ⟨s.toBlock.advance⟩
  | .accept w => .next ⟨s.toBlock.advance.accept w⟩
  | .hold => .next ⟨s.toBlock.advance.hold⟩

/-- The state in which the command word given by the low `nbits` bits of `w` has been accepted and completes at the next
edge, the host being idle at that edge (R24, R37; log entry 6). A command in flight means `rsp_valid` is 0 (R39). -/
def State.withFetchWord (s : State) (nbits w : Nat) : State :=
  { s with inFlight := some (BitVec.ofNat _ (w % 2 ^ nbits)), rspValid := false, edges := Edge.idle :: s.edges }

end Sys2Proof.Machine
end

