-- ==== Sys2Proof/Machine/Assembler.lean ====
section
/-! DEFINITION. The external representation of a codeword (R34) and the assembler's lines, as abstract syntax (R55, R56).
Neither is part of the block: the host turns text into command words. -/

namespace Sys2Proof.Machine

/-- The external representation: the `T` bits of a codeword, position `T` first (R34, R95). -/
def externalBits (T : Nat) (c : Word) : List Bool := (List.range T).reverse.map fun b => c.testBit b

/-- The integer that a string of binary digits stands for, leftmost digit most significant (R34, R55). -/
def ofExternalBits (digits : List Bool) : Word := digits.foldl (fun v d => 2 * v + d.toNat) 0

/-- An operand as it is written (R55). -/
inductive Literal where
  /-- A decimal or hexadecimal number, read. -/
  | number (v : Nat)
  /-- A one-character ASCII literal. -/
  | ascii (c : Char)
  /-- A binary literal, leftmost digit first; also a codeword in its external representation. -/
  | binary (digits : List Bool)
  deriving DecidableEq, Repr

/-- The number a literal stands for (R55). -/
def Literal.value : Literal → Nat
  | .number v => v
  | .ascii c => c.toNat
  | .binary digits => ofExternalBits digits

/-- One line of assembler (R55); `decode w none` is the pseudo-instruction `DECODE <w>` (R56). -/
inductive AsmLine where
  | build (n : Literal)
  | encode (d : Literal)
  | decode (w : Literal) (length : Option Literal)
  | word (v : Literal)
  deriving DecidableEq, Repr

/-- Why a line is refused (R55, R56). -/
inductive AsmError where
  /-- An operand does not fit its field (R55). -/
  | operandTooWide
  /-- The length was omitted, and the assembler was not told that the layout is full-length (R56). -/
  | lengthOmitted
  deriving DecidableEq, Repr

/-- The command word of a command that fits (R55). -/
def assembleInstr (kmax : Nat) (i : Instr) : Except AsmError (CmdWord kmax) :=
  if wellFormed kmax i then .ok (encodeWord kmax i) else .error .operandTooWide

/-- One line's command word; `fullLength` says that the program runs entirely under a layout with `LT = TMAX` (R56). -/
def assembleLine (kmax : Nat) (fullLength : Bool) : AsmLine → Except AsmError (CmdWord kmax)
  | .build n => assembleInstr kmax (.build 0 n.value)
  | .encode d => assembleInstr kmax (.encode 0 d.value)
  | .decode w (some L) => assembleInstr kmax (.decode L.value w.value)
  | .decode w none =>
    if fullLength then assembleInstr kmax (.decode (Config.tmax kmax) w.value) else .error .lengthOmitted
  | .word v => if v.value < 2 ^ Config.cmdw kmax then .ok (BitVec.ofNat _ v.value) else .error .operandTooWide

end Sys2Proof.Machine
end

