-- ==== Sys2Proof/Machine/Transaction.lean ====
section
/-! DEFINITION. The block at transaction level, for every KMAX: the step `(layout, response) × command word →
(layout', response')` (R9, R38), a run and its trace (R156). -/

namespace Sys2Proof.Machine

/-- One command on the registers. -/
def Regs.apply {kmax : Nat} (i : Instr) (r : Regs kmax) : Regs kmax :=
  match i with
  | .build _ arg => r.build arg
  | .encode _ arg => r.encode arg
  | .decode len arg => r.decode len arg
  | .reserved _ _ => r.reserved

/-- One command word on the registers (R38). -/
def Regs.transact {kmax : Nat} (r : Regs kmax) (w : CmdWord kmax) : Regs kmax := r.apply (decodeWord kmax w)

/-- The registers after a list of command words, each executed to completion before the next (R40, R156). -/
def Regs.runWords {kmax : Nat} (r : Regs kmax) (ws : List (CmdWord kmax)) : Regs kmax := ws.foldl Regs.transact r

/-- The trace: the registers after each command in turn (R156). -/
def Regs.trace {kmax : Nat} (r : Regs kmax) : List (CmdWord kmax) → List (Regs kmax)
  | [] => []
  | w :: ws => r.transact w :: (r.transact w).trace ws

end Sys2Proof.Machine
end

