-- ==== Sys2Proof/Machine/Clock.lean ====
section
/-! DEFINITION. The clocked block for every KMAX (R5, R31): one rising edge, the machine it makes, and how a host presents
commands on the pins (R37, R40 to R42). `step` is this clock at the reference size. -/

namespace Sys2Proof.Machine

section Clock
variable {kmax : Nat}

/-- The completion of a command in a block of any size (R38). -/
def Block.execute (i : Instr) (b : Block kmax) : Block kmax := b.complete (b.regs.apply i)

/-- One rising edge of a block of any size; there always is a next state (R52). -/
def Block.clock (b : Block kmax) : Block kmax :=
  match b.event with
  | .reset => b.advance.applyReset
  | .complete w => b.advance.execute (decodeWord kmax w)
  | .accept w => b.advance.accept w
  | .hold => b.advance.hold

/-- The block with parameter `kmax` as a machine in the host's form. -/
def machineOf (kmax : Nat) : Host.Core where
  State := Block kmax
  Fault := Fault
  Refusal := Refusal
  step b := .next b.clock
  reset := Block.reset kmax

/-- One command as it passes over the pins: edges at which the host offers nothing, the edge that offers the word, the
edges at which the block is still busy with it, and the edge at which it completes. LAT is the number of busy edges and
one (R37, R38, R41, R162). -/
structure Job (kmax : Nat) where
  idle : List (Edge kmax)
  offer : Edge kmax
  busy : List (Edge kmax)
  last : Edge kmax
  deriving DecidableEq, Repr

/-- The word accepted: the one on `cmd` at the accepting edge (R37, R42 (a)). -/
def Job.word (j : Job kmax) : CmdWord kmax := j.offer.cmd

/-- The host holds `cmd_valid = 0`, then offers the word; there is no reset, and the block finishes at the last edge and
not before. What the host drives on `cmd` while the block is busy is its own affair (R42 (a)). -/
abbrev Job.Proper (j : Job kmax) : Prop :=
  (∀ e ∈ j.idle, e.rst = false ∧ e.cmdValid = false) ∧ (j.offer.rst = false ∧ j.offer.cmdValid = true) ∧
  (∀ e ∈ j.busy, e.rst = false ∧ e.finish = false) ∧ j.last.rst = false ∧ j.last.finish = true

/-- The edges of one command in order. -/
def Job.edges (j : Job kmax) : List (Edge kmax) := j.idle ++ j.offer :: (j.busy ++ [j.last])

/-- A command that is offered at once and completes at the first edge after its acceptance. -/
def Job.quick (w : CmdWord kmax) : Job kmax where
  idle := []
  offer := Edge.offer w
  busy := []
  last := Edge.idle

/-- A host that presents the jobs one after the other (R40, R156). -/
def schedule (jobs : List (Job kmax)) : List (Edge kmax) := jobs.flatMap Job.edges

/-- A block whose host presents the command words one after the other, before what it would do otherwise. -/
def Block.present (b : Block kmax) (ws : List (CmdWord kmax)) : Block kmax :=
  { b with edges := schedule (ws.map Job.quick) ++ b.edges }

end Clock

/-- The machine whose host presents the command words one after the other. -/
def State.present (s : State) (ws : List (CmdWord Config.refKmax)) : State := ⟨s.toBlock.present ws⟩

end Sys2Proof.Machine
end

