-- ==== Sys2Proof/Safety.lean ====
section
/-! DEFINITION. The legal states: what holds at reset and after every step. -/

namespace Sys2Proof.Machine

/-- The layout registers hold no layout or the layout of one data width (R16). -/
abbrev Regs.LayoutOk {kmax : Nat} (r : Regs kmax) : Prop :=
  (r.lv = false → r.ln.toNat = 0 ∧ r.lk.toNat = 0 ∧ r.lt.toNat = 0) ∧
  (r.lv = true → r.ln.toNat ≤ Config.nmax kmax ∧ r.lk.toNat = parityCount r.ln.toNat ∧
    r.lt.toNat = 2 ^ r.lk.toNat - 1)

/-- The response registers hold a response that some command can leave under the current layout: nothing beside an error
(R131), a corrected codeword of the layout or 0 (R21, R118), and nothing above the layout's length (R19 to R21, R33). -/
abbrev Regs.ResponseOk {kmax : Nat} (r : Regs kmax) : Prop :=
  (r.st ≠ .ok → r.res = 0 ∧ r.syn = 0 ∧ r.cwc = 0) ∧
  r.res.toNat < 2 ^ r.lt.toNat ∧ r.syn.toNat ≤ r.lt.toNat ∧ r.cwc.toNat < 2 ^ r.lt.toNat ∧
  syndrome r.lk.toNat r.cwc.toNat = 0

/-- The registers are legal. -/
abbrev Regs.Ok {kmax : Nat} (r : Regs kmax) : Prop := r.LayoutOk ∧ r.ResponseOk

/-- Two register files hold the same layout (R12 to R15). -/
abbrev Regs.SameLayout {kmax : Nat} (r r' : Regs kmax) : Prop :=
  r.lv = r'.lv ∧ r.ln = r'.ln ∧ r.lk = r'.lk ∧ r.lt = r'.lt

/-- The response `(ST, RES, SYN, CWC)`, as numbers (R18 to R21, R156). -/
abbrev Regs.Response {kmax : Nat} (r : Regs kmax) (st : Status) (res syn cwc : Nat) : Prop :=
  r.st = st ∧ r.res.toNat = res ∧ r.syn.toNat = syn ∧ r.cwc.toNat = cwc

/-- What the completion of any command does beside its register writes: the block is ready again, `rsp_valid` is 1, and
the host's coming edges are as they were (R38, R39, R131). -/
abbrev State.Completed (s t : State) : Prop := t.inFlight = none ∧ t.rspValid = true ∧ t.edges = s.edges

/-- A legal block: legal registers, and it is ready in the cycle of `rsp_valid` (R39). -/
abbrev Block.Ok {kmax : Nat} (b : Block kmax) : Prop := b.regs.Ok ∧ (b.rspValid = true → b.inFlight = none)

/-- A legal state of the machine. -/
abbrev State.Ok (s : State) : Prop := s.toBlock.Ok

end Sys2Proof.Machine
end

