-- ==== Sys2Proof/Certificates/Slice0/Obligations.lean ====
section
/-! DEFINITION. The statements for the provers. There is no memory, no program counter and no general register in the block
(R10, R11, R30), so a frame speaks of the eight registers, the handshake and the host's coming edges, which is all of State.
A statement for every KMAX speaks of `Regs.apply` and `Regs.transact`, on the registers of a block of any size, or of
`Block.clock` and `machineOf`, on the whole clocked block; the machine's `exec` and `step` are these at the reference size
(`Sys2Proof.Machine.exec_eq`, `Sys2Proof.Machine.step_eq`). -/

open Sys2Proof Sys2Proof.Machine

/-! ## Encoding -/

/-- For every KMAX, decoding the encoded word of a well-formed command gives the command back, every field at every value
its width admits (30_encoding.md sections 1 and 2). -/
def Obligations.DecodeOfEncode : Prop :=
  ∀ (kmax : Nat) (i : Instr), wellFormed kmax i = true → decodeWord kmax (encodeWord kmax i) = i

/-- For every KMAX, every command word decodes to a well-formed command that encodes back to that word, so no two words
share a meaning and none is left out (30_encoding.md sections 1 and 4). -/
def Obligations.EncodeOfDecode : Prop :=
  ∀ (kmax : Nat) (w : CmdWord kmax),
    wellFormed kmax (decodeWord kmax w) = true ∧ encodeWord kmax (decodeWord kmax w) = w

/-- R47: the two most significant bits select the operation, and nothing else does; for KMAX = 4 the four rows match under
the mask 0x300000. The two other slices of the bus are the operand fields. -/
def Obligations.OpFieldSelectsCommand : Prop :=
  (∀ (kmax : Nat) (w : CmdWord kmax),
    decodeWord kmax w =
      (match w.extractLsb' (Config.tmax kmax + Config.lw kmax) 2 with
        | 0#2 => Instr.build
        | 1#2 => Instr.encode
        | 2#2 => Instr.decode
        | _ => Instr.reserved)
      (w.extractLsb' (Config.tmax kmax) (Config.lw kmax)).toNat (w.extractLsb' 0 (Config.tmax kmax)).toNat) ∧
  ∀ w : CmdWord Config.refKmax,
    (w &&& 0x300000 = 0x000000 ↔ ∃ len arg, decodeWord Config.refKmax w = .build len arg) ∧
    (w &&& 0x300000 = 0x100000 ↔ ∃ len arg, decodeWord Config.refKmax w = .encode len arg) ∧
    (w &&& 0x300000 = 0x200000 ↔ ∃ len arg, decodeWord Config.refKmax w = .decode len arg) ∧
    (w &&& 0x300000 = 0x300000 ↔ ∃ len arg, decodeWord Config.refKmax w = .reserved len arg)

/-- Words written out from the encodings and listings of 30_encoding.md and 95_test_vectors.md. -/
def Obligations.SampleWordsDecode : Prop :=
  decodeTableWord 24 0x000007 = some (.build 0 7) ∧ decodeTableWord 24 0x048001 = some (.build 9 1) ∧
  decodeTableWord 24 0x100061 = some (.encode 0 97) ∧ decodeTableWord 24 0x1F8001 = some (.encode 31 1) ∧
  decodeTableWord 24 0x278406 = some (.decode 15 0x0406) ∧ decodeTableWord 24 0x22FFD5 = some (.decode 5 0x7FD5) ∧
  decodeTableWord 24 0x3ABCDE = some (.reserved 21 0x3CDE) ∧ decodeTableWord 24 0x3FFFFF = some (.reserved 31 0x7FFF)

/-- Every number that fits the command port decodes (30_encoding.md section 1); that a wider number is rejected, and by this
name, is the model's choice, log entry 6. -/
def Obligations.NumberDecodesIffItFits : Prop :=
  ∀ (kmax v : Nat),
    (v < 2 ^ Config.cmdw kmax → decodeNumber kmax v = .ok (decodeWord kmax (BitVec.ofNat _ v))) ∧
    (2 ^ Config.cmdw kmax ≤ v → decodeNumber kmax v = .error (.widerThanCommandWord v))

/-- R51: BUILD and ENCODE ignore the `len` field, and the assembler writes 0 there. -/
def Obligations.LenIgnoredByBuildAndEncode : Prop :=
  (∀ (len len' arg : Nat) (s : State),
    exec (.build len arg) s = exec (.build len' arg) s ∧ exec (.encode len arg) s = exec (.encode len' arg) s) ∧
  (∀ (kmax len len' arg : Nat) (r : Regs kmax),
    r.apply (.build len arg) = r.apply (.build len' arg) ∧ r.apply (.encode len arg) = r.apply (.encode len' arg)) ∧
  ∀ (kmax : Nat) (full : Bool) (v : Literal) (w : CmdWord kmax),
    (assembleLine kmax full (.build v) = .ok w → lenField kmax w = 0) ∧
    (assembleLine kmax full (.encode v) = .ok w → lenField kmax w = 0)

/-- The assembler: each line whose operands fit their fields gives the word that decodes to its command, an operand that
does not fit is refused, and the length may be omitted only under a full-length layout, where it is TMAX (30_encoding.md
section 6). -/
def Obligations.AssemblerGivesTheCommand : Prop :=
  ∀ (kmax : Nat) (full : Bool) (v L : Literal),
    (v.value < 2 ^ Config.tmax kmax →
      (assembleLine kmax full (.build v)).map (decodeWord kmax) = .ok (.build 0 v.value) ∧
      (assembleLine kmax full (.encode v)).map (decodeWord kmax) = .ok (.encode 0 v.value) ∧
      (L.value < 2 ^ Config.lw kmax →
        (assembleLine kmax full (.decode v (some L))).map (decodeWord kmax) = .ok (.decode L.value v.value)) ∧
      (2 ^ Config.lw kmax ≤ L.value → assembleLine kmax full (.decode v (some L)) = .error .operandTooWide) ∧
      (assembleLine kmax true (.decode v none)).map (decodeWord kmax) = .ok (.decode (Config.tmax kmax) v.value)) ∧
    (2 ^ Config.tmax kmax ≤ v.value →
      assembleLine kmax full (.build v) = .error .operandTooWide ∧
      assembleLine kmax full (.encode v) = .error .operandTooWide ∧
      assembleLine kmax full (.decode v (some L)) = .error .operandTooWide ∧
      assembleLine kmax true (.decode v none) = .error .operandTooWide) ∧
    assembleLine kmax false (.decode v none) = .error .lengthOmitted ∧
    (v.value < 2 ^ Config.cmdw kmax →
      (assembleLine kmax full (.word v)).map BitVec.toNat = .ok v.value) ∧
    (2 ^ Config.cmdw kmax ≤ v.value → assembleLine kmax full (.word v) = .error .operandTooWide)

/-- The external representation of a `T`-bit codeword has `T` digits, the `a`-th from the left (from 0) being position
`T - a`, and reads back as the same integer (20_memory.md section 2). -/
def Obligations.ExternalRepresentation : Prop :=
  ∀ (T c : Nat),
    (externalBits T c).length = T ∧
    (∀ a < T, (externalBits T c)[a]? = some (pos c (T - a))) ∧
    (c < 2 ^ T → ofExternalBits (externalBits T c) = c)

/-! ## The clock edge -/

/-- A completion edge runs the command in flight: the step is `exec` of the decoded word on the state with that edge taken;
in particular a word that decodes to `i` runs as `i` when it is placed. The edges are the model's own (log entries 2, 3
and 6). -/
def Obligations.StepRunsTheDecodedCommand : Prop :=
  (∀ (s : State) (w : CmdWord Config.refKmax), s.inFlight = some w → s.edge.rst = false → s.edge.finish = true →
    step s = exec (decodeWord Config.refKmax w) { s with edges := s.edges.tail }) ∧
  ∀ (s : State) (nbits v : Nat) (i : Instr), decodeTableWord nbits v = some i →
    step (s.withFetchWord nbits v) =
      exec i { s with inFlight := some (BitVec.ofNat _ (v % 2 ^ nbits)), rspValid := false }

/-- An edge with `rst` = 1 gives every register its reset value whatever would else have been accepted or completed, and a
command in flight is dropped without a pulse of `rsp_valid`, for the machine and for every KMAX (70_reset_and_hazards.md
section 1). That the host's later edges stay is the model's choice, log entry 2. -/
def Obligations.ResetWinsAtEveryEdge : Prop :=
  (∀ s : State, s.edge.rst = true → step s = .next { State.reset with edges := s.edges.tail }) ∧
  ∀ (kmax : Nat) (b : Block kmax), b.edge.rst = true → b.clock = { Block.reset kmax with edges := b.edges.tail }

/-- R37: a word is accepted exactly at an edge with rst = 0, cmd_valid = 1 and cmd_ready = 1, and it is the word on `cmd`
at that edge; cmd_ready is 1 exactly when no command is in flight; while one is, no other is accepted. -/
def Obligations.AcceptanceRule : Prop :=
  ∀ s t : State, step s = .next t →
    (s.outputs.cmdReady = true ↔ s.inFlight = none) ∧
    (∀ w, (s.outputs.cmdReady = true ∧ t.inFlight = some w) ↔
      (s.edge.rst = false ∧ s.edge.cmdValid = true ∧ s.outputs.cmdReady = true ∧ s.edge.cmd = w)) ∧
    ∀ v, s.inFlight = some v → t.inFlight = some v ∨ t.inFlight = none

/-- An edge at which nothing is reset, accepted or completed leaves every register as it is, with `rsp_valid` 0
(20_memory.md section 4). Which edges complete is the model's own free choice (log entry 3). -/
def Obligations.RegistersHoldBetweenEvents : Prop :=
  ∀ s : State, s.edge.rst = false →
    (∀ w, s.inFlight = some w → s.edge.finish = false →
      step s = .next { s with rspValid := false, edges := s.edges.tail }) ∧
    (s.inFlight = none → s.edge.cmdValid = false →
      step s = .next { s with rspValid := false, edges := s.edges.tail }) ∧
    (s.inFlight = none → s.edge.cmdValid = true →
      step s = .next { s with inFlight := some s.edge.cmd, rspValid := false, edges := s.edges.tail })

/-- `rsp_valid` is 1 after an edge exactly when a command completed at that edge, and the block is then ready again
(20_memory.md section 4; the completing edge is log entry 3's). -/
def Obligations.ResponsePulseMarksCompletion : Prop :=
  ∀ s t : State, step s = .next t →
    (t.rspValid = true ↔ s.edge.rst = false ∧ s.edge.finish = true ∧ s.inFlight ≠ none) ∧
    (t.rspValid = true → t.outputs.cmdReady = true)

/-- Every state has a next state: no fault and no refusal is reachable, or even possible
(93_implementation_defined.md, end of section 2). -/
def Obligations.NoStateIsStuck : Prop := ∀ s : State, ∃ t, step s = .next t

/-- For the machine and for every KMAX, a command in flight completes within a finite number of edges if the host does not
reset the block; until then every register holds, and the writes land together (20_memory.md section 4). The bound is by the
host's listed edges, which the model adds (log entries 2 and 3). -/
def Obligations.AcceptedCommandCompletes : Prop :=
  (∀ (s : State) (w : CmdWord Config.refKmax), s.inFlight = some w → (∀ e ∈ s.edges, e.rst = false) →
    ∃ n t, n ≤ s.edges.length ∧ Host.Core.run core (n + 1) s = .next t ∧
      t.regs = s.regs.transact w ∧ t.rspValid = true ∧ t.inFlight = none ∧
      ∀ m, 1 ≤ m → m ≤ n →
        ∃ u : State, Host.Core.run core m s = .next u ∧ u.regs = s.regs ∧ u.inFlight = some w ∧ u.rspValid = false) ∧
  ∀ (kmax : Nat) (b : Block kmax) (w : CmdWord kmax), b.inFlight = some w → (∀ e ∈ b.edges, e.rst = false) →
    ∃ n c, n ≤ b.edges.length ∧ Host.Core.run (machineOf kmax) (n + 1) b = .next c ∧
      c.regs = b.regs.transact w ∧ c.rspValid = true ∧ c.inFlight = none ∧
      ∀ m, 1 ≤ m → m ≤ n →
        ∃ d : Block kmax, Host.Core.run (machineOf kmax) m b = .next d ∧
          d.regs = b.regs ∧ d.inFlight = some w ∧ d.rspValid = false

/-- Refinement, for the machine and for every KMAX: however long the host offers nothing before each command, however long
each command takes and whatever the host drives while the block is busy, presenting a list of commands leaves the registers
that executing their words one after the other leaves (20_memory.md sections 4 to 6; 70_reset_and_hazards.md section 2). The
schedule of edges is the model's own (log entries 2 and 3). -/
def Obligations.ClockedBlockRefinesSerialExecution : Prop :=
  (∀ (s : State) (jobs : List (Job Config.refKmax)) (rest : List (Edge Config.refKmax)),
    s.inFlight = none → (∀ j ∈ jobs, j.Proper) → s.edges = schedule jobs ++ rest →
    ∃ t : State, Host.Core.run core (schedule jobs).length s = .next t ∧
      t.regs = s.regs.runWords (jobs.map Job.word) ∧ t.inFlight = none ∧ t.edges = rest ∧
      (jobs ≠ [] → t.rspValid = true)) ∧
  ∀ (kmax : Nat) (b : Block kmax) (jobs : List (Job kmax)) (rest : List (Edge kmax)),
    b.inFlight = none → (∀ j ∈ jobs, j.Proper) → b.edges = schedule jobs ++ rest →
    ∃ c : Block kmax, Host.Core.run (machineOf kmax) (schedule jobs).length b = .next c ∧
      c.regs = b.regs.runWords (jobs.map Job.word) ∧ c.inFlight = none ∧ c.edges = rest ∧
      (jobs ≠ [] → c.rspValid = true)

/-- The machine the host runs is the block of the reference size: `n` steps of the one are `n` edges of the other
(00_scope.md section 5; the reference size is log entry 1). -/
def Obligations.MachineRunsAsTheReferenceBlock : Prop :=
  ∀ (n : Nat) (s t : State),
    Host.Core.run core n s = .next t ↔ Host.Core.run (machineOf Config.refKmax) n s.toBlock = .next t.toBlock

/-- One rising edge of a block of any KMAX, in each of its five cases: reset, completion, busy, acceptance, idle
(20_memory.md section 4; 70_reset_and_hazards.md section 1). The list of edges and the completing edge are the model's own
(log entries 2 and 3). -/
def Obligations.ClockOfEveryBlock : Prop :=
  ∀ (kmax : Nat) (b : Block kmax),
    (b.edge.rst = true → b.clock = ⟨Regs.reset kmax, none, false, b.edges.tail⟩) ∧
    (b.edge.rst = false →
      (∀ w, b.inFlight = some w → b.edge.finish = true →
        b.clock = ⟨b.regs.transact w, none, true, b.edges.tail⟩) ∧
      (∀ w, b.inFlight = some w → b.edge.finish = false → b.clock = ⟨b.regs, some w, false, b.edges.tail⟩) ∧
      (b.inFlight = none → b.edge.cmdValid = true →
        b.clock = ⟨b.regs, some b.edge.cmd, false, b.edges.tail⟩) ∧
      (b.inFlight = none → b.edge.cmdValid = false → b.clock = ⟨b.regs, none, false, b.edges.tail⟩))

/-- Every output port shows its register in every state, for every KMAX: `cmd_ready` is 1 exactly when no command is in
flight, `st` shows the status code, `lv` is one bit (20_memory.md section 1; that `rsp_valid` is a bit of the state is log
entry 9). -/
def Obligations.OutputPortsShowRegisters : Prop :=
  ∀ (kmax : Nat) (b : Block kmax),
    (b.outputs.cmdReady = true ↔ b.inFlight = none) ∧ b.outputs.rspValid = b.rspValid ∧
    b.outputs.st.toNat = (match b.regs.st with
      | .ok => 0
      | .inputTooLong => 1
      | .inputWidthMismatch => 2
      | .noLayout => 3
      | .widthUnsupported => 4
      | .illegalOp => 5) ∧
    b.outputs.res = b.regs.res ∧ b.outputs.syn = b.regs.syn ∧ b.outputs.cwc = b.regs.cwc ∧
    (b.outputs.lv = 1 ↔ b.regs.lv = true) ∧
    b.outputs.ln = b.regs.ln ∧ b.outputs.lk = b.regs.lk ∧ b.outputs.lt = b.regs.lt

/-- The trace of a run lists, for each command, the registers that the commands up to it leave
(70_reset_and_hazards.md section 2). -/
def Obligations.TraceListsEveryResponse : Prop :=
  ∀ (kmax : Nat) (r : Regs kmax) (ws : List (CmdWord kmax)),
    (r.trace ws).length = ws.length ∧
    ∀ m < ws.length, (r.trace ws)[m]? = some (r.runWords (ws.take (m + 1)))

/-! ## Reset and invariants -/

/-- R26: every register at reset, for every KMAX, and the handshake of the machine. -/
def Obligations.ResetValues : Prop :=
  (∀ kmax : Nat,
    (Regs.reset kmax).lv = false ∧ (Regs.reset kmax).ln = 0 ∧ (Regs.reset kmax).lk = 0 ∧ (Regs.reset kmax).lt = 0 ∧
    (Regs.reset kmax).st = .ok ∧ (Regs.reset kmax).res = 0 ∧ (Regs.reset kmax).syn = 0 ∧
    (Regs.reset kmax).cwc = 0) ∧
  State.reset.regs = Regs.reset Config.refKmax ∧ State.reset.outputs.st = 0 ∧
  State.reset.inFlight = none ∧ State.reset.rspValid = false ∧ State.reset.outputs.cmdReady = true

/-- The reset state is legal, for the machine and for every KMAX (10_state.md section 7). -/
def Obligations.ResetIsLegal : Prop := State.reset.Ok ∧ ∀ kmax : Nat, (Block.reset kmax).Ok

/-- Every step of the machine, and every edge of a block of any KMAX, keeps the legal states legal: the layout registers hold
a layout or none, and the response registers hold what some command can leave under it (10_state.md sections 2 and 3). -/
def Obligations.StepKeepsLegal : Prop :=
  (∀ s t : State, s.Ok → step s = .next t → t.Ok) ∧
  ∀ (kmax : Nat) (b : Block kmax), 2 ≤ kmax → b.Ok → b.clock.Ok

/-- For every KMAX, every command word keeps legal registers legal (10_state.md sections 2 and 3). -/
def Obligations.EveryWordKeepsRegistersLegal : Prop :=
  ∀ (kmax : Nat) (r : Regs kmax) (w : CmdWord kmax), 2 ≤ kmax → r.Ok → (r.transact w).Ok

/-- `LV` after an edge is 1 exactly when the edge is no reset and it was 1 before or a BUILD of a width up to NMAX
completed at this edge. The layout registers change only at an edge with `rst` = 1, which clears them, or at the completion
edge of a BUILD of a width up to NMAX, which writes the layout of that width (10_state.md section 2, 40_layout_build.md
section 5; the completing edge is log entry 3's). -/
def Obligations.LayoutChangesOnlyByBuildOrReset : Prop :=
  ∀ s t : State, step s = .next t →
    (t.regs.lv = true ↔ s.edge.rst = false ∧ (s.regs.lv = true ∨
      (s.edge.finish = true ∧ ∃ w len arg, s.inFlight = some w ∧
        decodeWord Config.refKmax w = .build len arg ∧ arg ≤ 11))) ∧
    (t.regs.SameLayout s.regs ∨
      (s.edge.rst = true ∧ t.regs = Regs.reset Config.refKmax) ∨
      (s.edge.rst = false ∧ s.edge.finish = true ∧
        ∃ w len arg, s.inFlight = some w ∧ decodeWord Config.refKmax w = .build len arg ∧ arg ≤ 11 ∧
          t.regs.lv = true ∧ t.regs.ln.toNat = arg ∧ t.regs.lk.toNat = parityCount arg ∧
          t.regs.lt.toNat = 2 ^ parityCount arg - 1 ∧ t.regs.st = .ok ∧ t.rspValid = true))

/-! ## The Layout unit and BUILD -/

/-- `K(n)` is the least exponent with `2^k ≥ n + k + 1`; it is never 1 and never decreases
(40_layout_build.md section 1). -/
def Obligations.ParityCountIsLeast : Prop :=
  (∀ n k : Nat, parityCount n = k ↔ n + k + 1 ≤ 2 ^ k ∧ ∀ j < k, 2 ^ j < n + j + 1) ∧
  (∀ n : Nat, parityCount n ≠ 1) ∧
  (∀ n n' : Nat, n ≤ n' → parityCount n ≤ parityCount n') ∧
  ∀ n : Nat, n ≤ dataCount (parityCount n)

/-- The table of BitPosition records: every position once in order, its binary index is the index itself and loses no
digit, the parity positions are the powers of two, and the group of `2^p` is `p`; a data position has none
(40_layout_build.md section 2). -/
def Obligations.PositionTable : Prop :=
  ∀ k : Nat,
    (positions k).map BitPosition.index = List.range' 1 (2 ^ k - 1) ∧
    ∀ b ∈ positions k,
      b.binaryIndex.toNat = b.index ∧
      (∀ p < k, b.binaryIndex.getLsbD p = digit b.index p) ∧
      (b.isParity = true ↔ ∃ p < k, b.index = 2 ^ p) ∧
      ∀ p, b.parityGroup = some p ↔ b.index = 2 ^ p

/-- The parity positions are 1, 2, 4, …, 2^(k-1) and no others; the data positions are the rest in increasing order, the
first being 3; and a larger layout extends the list (40_layout_build.md sections 2 and 3). -/
def Obligations.ParityAndDataPositions : Prop :=
  (∀ k : Nat, (indices k).filter isParity = (List.range k).map fun p => 2 ^ p) ∧
  (∀ k : Nat, (dataPositions k).Pairwise (· < ·) ∧
    ∀ i, i ∈ dataPositions k ↔ 1 ≤ i ∧ i ≤ 2 ^ k - 1 ∧ ∀ p, i ≠ 2 ^ p) ∧
  (∀ k : Nat, 2 ≤ k → dataPos k 0 = some 3) ∧
  ∀ k k' j : Nat, k ≤ k' → j < dataCount k → dataPos k' j = dataPos k j

/-- Each group covers `2^(k-1)` positions; a parity position is covered by its own group alone, a data position by at least
two; and the columns of the parity-check matrix are the indices themselves (40_layout_build.md section 3). -/
def Obligations.ParityCheckMatrix : Prop :=
  ∀ k p : Nat, p < k →
    (cover k p).length = 2 ^ (k - 1) ∧
    (∀ q < k, 2 ^ p ∈ cover k q ↔ q = p) ∧
    (∀ i ∈ dataPositions k, ∃ q q', q < q' ∧ q' < k ∧ i ∈ cover k q ∧ i ∈ cover k q') ∧
    (∀ i, 1 ≤ i → i ≤ 2 ^ k - 1 → collect k (fun q => checkMatrix q i) = i) ∧
    ∀ b, (coverMask k p).testBit b = true ↔ b + 1 ∈ cover k p

/-- BUILD of a width up to NMAX = 11 completes: the four layout registers hold n, the least k and 2^k - 1, the response is
OK with zeros, and nothing else changes (40_layout_build.md section 5). -/
def Obligations.BuildCompletes : Prop :=
  ∀ (s : State) (len arg : Nat), arg ≤ 11 →
    ∃ (t : State) (k : Nat), exec (.build len arg) s = .next t ∧
      (arg + k + 1 ≤ 2 ^ k ∧ ∀ j < k, 2 ^ j < arg + j + 1) ∧
      t.regs.lv = true ∧ t.regs.ln.toNat = arg ∧ t.regs.lk.toNat = k ∧ t.regs.lt.toNat = 2 ^ k - 1 ∧
      t.regs.Response .ok 0 0 0 ∧ s.Completed t

/-- The same for every KMAX, on the registers: no width up to NMAX is truncated (40_layout_build.md section 5,
00_scope.md section 5). -/
def Obligations.BuildInstallsTheLayout : Prop :=
  ∀ (kmax : Nat) (r : Regs kmax) (len arg : Nat), 2 ≤ kmax → arg ≤ Config.nmax kmax →
    (r.apply (.build len arg)).lv = true ∧ (r.apply (.build len arg)).ln.toNat = arg ∧
    (r.apply (.build len arg)).lk.toNat = parityCount arg ∧
    (r.apply (.build len arg)).lt.toNat = 2 ^ parityCount arg - 1 ∧ parityCount arg ≤ kmax ∧
    (r.apply (.build len arg)).Response .ok 0 0 0

/-- R71: the Layout is a pure function of n: a BUILD that succeeds leaves the same registers whatever was there. -/
def Obligations.LayoutIsAFunctionOfTheWidth : Prop :=
  ∀ (kmax : Nat) (r r' : Regs kmax) (len len' arg : Nat), arg ≤ Config.nmax kmax →
    r.apply (.build len arg) = r'.apply (.build len' arg)

/-- R127: WidthUnsupported, code 4, is the outcome of BUILD with arg > NMAX, that is with K(arg) > KMAX, and of nothing
else. -/
def Obligations.WidthUnsupportedExactly : Prop :=
  Status.widthUnsupported.code = 4 ∧
  (∀ (kmax : Nat) (r : Regs kmax) (i : Instr), 2 ≤ kmax →
    ((r.apply i).st = .widthUnsupported ↔ ∃ len arg, i = .build len arg ∧ Config.nmax kmax < arg)) ∧
  ∀ kmax n : Nat, 2 ≤ kmax → (Config.nmax kmax < n ↔ kmax < parityCount n)

/-- R72: BUILD 0 is accepted and gives the empty layout, with no positions and no groups; under it the only encodable data
unit is 0, with RES = 0, and the only decodable length is 0, with syndrome 0 and result 0. -/
def Obligations.EmptyLayout : Prop :=
  ∀ (kmax : Nat) (r : Regs kmax) (len : Nat), 2 ≤ kmax →
    (r.apply (.build len 0)).lv = true ∧ (r.apply (.build len 0)).ln.toNat = 0 ∧
    (r.apply (.build len 0)).lk.toNat = 0 ∧ (r.apply (.build len 0)).lt.toNat = 0 ∧
    (r.apply (.build len 0)).st = .ok ∧ dataCount 0 = 0 ∧ positions 0 = [] ∧
    (∀ len' d, (((r.apply (.build len 0)).apply (.encode len' d)).st = .ok ↔ d = 0) ∧
      ((r.apply (.build len 0)).apply (.encode len' d)).res = 0) ∧
    ∀ L arg, (((r.apply (.build len 0)).apply (.decode L arg)).st = .ok ↔ L = 0) ∧
      ((r.apply (.build len 0)).apply (.decode L arg)).syn = 0 ∧
      ((r.apply (.build len 0)).apply (.decode L arg)).res = 0

/-! ## The syndrome unit -/

/-- The three equivalent forms: by cover masks, by the XOR of the set indices, by the parity-check matrix
(41_syndrome_unit.md section 1). -/
def Obligations.SyndromeForms : Prop :=
  ∀ k w : Nat, w < 2 ^ (2 ^ k - 1) →
    syndrome k w = syndromeByMask k w ∧ syndrome k w = syndromeByIndex k w ∧ syndrome k w = syndromeByMatrix k w

/-- Range, linearity, and the effect of one flip (41_syndrome_unit.md section 2). -/
def Obligations.SyndromeLaws : Prop :=
  ∀ k w v : Nat,
    syndrome k w ≤ 2 ^ k - 1 ∧ syndrome k 0 = 0 ∧
    syndrome k (w ^^^ v) = syndrome k w ^^^ syndrome k v ∧
    ∀ i, 1 ≤ i → i ≤ 2 ^ k - 1 →
      syndrome k (2 ^ (i - 1)) = i ∧ syndrome k (flip w i) = syndrome k w ^^^ i

/-- The code is perfect: a word whose syndrome is s ≠ 0 is one flip, of position s, away from a codeword, and of no other
position (41_syndrome_unit.md section 2). -/
def Obligations.EveryWordIsNearOneCodeword : Prop :=
  ∀ k w : Nat, w < 2 ^ (2 ^ k - 1) → syndrome k w ≠ 0 →
    isCodeword k (flip w (syndrome k w)) = true ∧
    ∀ i, 1 ≤ i → i ≤ 2 ^ k - 1 → isCodeword k (flip w i) = true → i = syndrome k w

/-! ## ENCODE -/

/-- The parity bits as the document computes them, over data positions only, are the syndrome of the data-only word
(42_encode.md section 1). -/
def Obligations.ParityVectorIsSyndrome : Prop :=
  ∀ k n d p : Nat, p < k → parityBit k (scatter k n d) p = (syndrome k (scatter k n d)).testBit p

/-- ENCODE of a data unit that fits completes: status OK, no syndrome, no corrected word, layout and all else unchanged;
and under a legal layout RES holds data bit j at the (j+1)-th data position, 0 at the pad positions and above the
codeword, and at position 2^p the XOR of the data bits whose position index has bit p set (42_encode.md sections 1
and 2). -/
def Obligations.EncodeCompletes : Prop :=
  ∀ (s : State) (len arg : Nat), s.regs.lv = true → arg < 2 ^ s.regs.ln.toNat →
    ∃ t : State, exec (.encode len arg) s = .next t ∧
      t.regs.st = .ok ∧ t.regs.syn = 0 ∧ t.regs.cwc = 0 ∧ t.regs.SameLayout s.regs ∧ s.Completed t ∧
      (s.regs.LayoutOk →
        t.regs.res.toNat < 2 ^ s.regs.lt.toNat ∧
        (∀ j i, dataPos s.regs.lk.toNat j = some i →
          pos t.regs.res.toNat i = (decide (j < s.regs.ln.toNat) && arg.testBit j)) ∧
        ∀ p < s.regs.lk.toNat,
          pos t.regs.res.toNat (2 ^ p) =
            xorOver ((List.range s.regs.ln.toNat).filter fun j =>
              (dataPos s.regs.lk.toNat j).elim false fun i => i.testBit p) arg.testBit)

/-- Every ENCODE result is a codeword, for every layout (42_encode.md section 3). -/
def Obligations.EncodedWordIsCodeword : Prop :=
  ∀ k n d : Nat, n ≤ dataCount k → isCodeword k (encodeUnit k n d) = true

/-- ENCODE is linear, and two different data units get codewords that differ in at least three positions
(42_encode.md section 3). -/
def Obligations.EncodeDistanceThree : Prop :=
  ∀ k n d e : Nat, n ≤ dataCount k → d < 2 ^ n → e < 2 ^ n →
    encodeUnit k n (d ^^^ e) = encodeUnit k n d ^^^ encodeUnit k n e ∧
    (d ≠ e → 3 ≤ ((indices k).filter fun i => pos (encodeUnit k n d) i != pos (encodeUnit k n e) i).length)

/-- R126: InputWidthMismatch, code 2, is the outcome of ENCODE with LV = 1 and arg ≥ 2^LN, equivalently arg >> LN ≠ 0, and
of nothing else; nothing is truncated: no codeword is produced. -/
def Obligations.InputWidthMismatchExactly : Prop :=
  Status.inputWidthMismatch.code = 2 ∧
  ∀ (kmax : Nat) (r : Regs kmax) (i : Instr),
    ((r.apply i).st = .inputWidthMismatch ↔
      ∃ len arg, i = .encode len arg ∧ r.lv = true ∧ 2 ^ r.ln.toNat ≤ arg) ∧
    ((r.apply i).st = .inputWidthMismatch ↔
      ∃ len arg, i = .encode len arg ∧ r.lv = true ∧ arg >>> r.ln.toNat ≠ 0) ∧
    ((r.apply i).st = .inputWidthMismatch → (r.apply i).res = 0)

/-! ## DECODE -/

/-- DECODE of a length up to LT completes: status OK, layout and all else unchanged; and under a legal layout SYN is the
XOR of the indices of the set positions of the received word, CWC is that word with position SYN flipped if SYN ≠ 0, and
RES is the data unit at the first LN data positions of CWC (43_decode.md sections 1 and 2). -/
def Obligations.DecodeCompletes : Prop :=
  ∀ (s : State) (len arg : Nat), s.regs.lv = true → len ≤ s.regs.lt.toNat →
    ∃ t : State, exec (.decode len arg) s = .next t ∧
      t.regs.st = .ok ∧ t.regs.SameLayout s.regs ∧ s.Completed t ∧
      (s.regs.LayoutOk →
        t.regs.syn.toNat = syndromeByIndex s.regs.lk.toNat (arg % 2 ^ len) ∧
        (t.regs.syn = 0 → t.regs.cwc.toNat = arg % 2 ^ len) ∧
        (t.regs.syn ≠ 0 → t.regs.cwc.toNat = (arg % 2 ^ len) ^^^ 2 ^ (t.regs.syn.toNat - 1)) ∧
        t.regs.res.toNat < 2 ^ s.regs.ln.toNat ∧
        ∀ j i, j < s.regs.ln.toNat → dataPos s.regs.lk.toNat j = some i →
          t.regs.res.toNat.testBit j = pos t.regs.cwc.toNat i)

/-- Bits of arg at index len and above are ignored, and a short word decodes as the same word at full length with its
missing high positions 0 (43_decode.md sections 1 and 3). -/
def Obligations.DecodeMasksAboveLength : Prop :=
  ∀ (kmax : Nat) (r : Regs kmax) (len arg arg' : Nat),
    (arg % 2 ^ len = arg' % 2 ^ len → r.apply (.decode len arg) = r.apply (.decode len arg')) ∧
    (len ≤ r.lt.toNat → r.apply (.decode len arg) = r.apply (.decode r.lt.toNat (arg % 2 ^ len)))

/-- R125: InputTooLong, code 1, is the outcome of DECODE with LV = 1 and len > LT, and of nothing else; the test is on the
length and not on arg; no correction is attempted and there is no data-unit result. -/
def Obligations.InputTooLongExactly : Prop :=
  Status.inputTooLong.code = 1 ∧
  ∀ (kmax : Nat) (r : Regs kmax) (i : Instr),
    ((r.apply i).st = .inputTooLong ↔ ∃ len arg, i = .decode len arg ∧ r.lv = true ∧ r.lt.toNat < len) ∧
    (∀ len arg arg', (r.apply (.decode len arg)).st = .inputTooLong ↔
      (r.apply (.decode len arg')).st = .inputTooLong) ∧
    ((r.apply i).st = .inputTooLong → (r.apply i).res = 0 ∧ (r.apply i).syn = 0 ∧ (r.apply i).cwc = 0)

/-- After every DECODE that completes with OK the corrected word is a codeword of the layout, and it differs from the
received word in no position or in the one position SYN (43_decode.md section 3). -/
def Obligations.CorrectedWordIsCodeword : Prop :=
  ∀ (kmax : Nat) (r : Regs kmax) (len arg : Nat), 2 ≤ kmax → r.LayoutOk → (r.apply (.decode len arg)).st = .ok →
    isCodeword r.lk.toNat (r.apply (.decode len arg)).cwc.toNat = true ∧
    ((r.apply (.decode len arg)).cwc.toNat = arg % 2 ^ len ∨
      (1 ≤ (r.apply (.decode len arg)).syn.toNat ∧ (r.apply (.decode len arg)).syn.toNat ≤ r.lt.toNat ∧
        (r.apply (.decode len arg)).cwc.toNat = flip (arg % 2 ^ len) (r.apply (.decode len arg)).syn.toNat))

/-! ## The codec as a whole -/

/-- Round trip, for every KMAX, every width and every value: BUILD n, ENCODE v, DECODE of the codeword, as command words,
return v with syndrome 0 (43_decode.md section 3). -/
def Obligations.RoundTrip : Prop :=
  ∀ (kmax n v : Nat) (r : Regs kmax), 2 ≤ kmax → n ≤ Config.nmax kmax → v < 2 ^ n →
    ∃ c, c < 2 ^ (2 ^ parityCount n - 1) ∧
      (r.runWords [encodeWord kmax (.build 0 n), encodeWord kmax (.encode 0 v)]).Response .ok c 0 0 ∧
      (r.runWords [encodeWord kmax (.build 0 n), encodeWord kmax (.encode 0 v),
        encodeWord kmax (.decode (2 ^ parityCount n - 1) c)]).Response .ok v 0 c

/-- Single-error correction, for every KMAX, every width, every value and every position, parity, data or pad: DECODE of
the codeword with position i flipped returns v, names i and restores the codeword (43_decode.md section 3). -/
def Obligations.SingleErrorCorrection : Prop :=
  ∀ (kmax n v i : Nat) (r : Regs kmax), 2 ≤ kmax → n ≤ Config.nmax kmax → v < 2 ^ n →
    1 ≤ i → i ≤ 2 ^ parityCount n - 1 →
    ∃ c, (r.runWords [encodeWord kmax (.build 0 n), encodeWord kmax (.encode 0 v)]).Response .ok c 0 0 ∧
      (r.runWords [encodeWord kmax (.build 0 n), encodeWord kmax (.encode 0 v),
        encodeWord kmax (.decode (2 ^ parityCount n - 1) (flip c i))]).Response .ok v i c

/-- Two flipped positions i ≠ j: the command still completes with OK, SYN is i XOR j, the third position i XOR j is flipped,
and RES is v exactly when none of the three is among the first n data positions (43_decode.md section 3). -/
def Obligations.DoubleErrorMiscorrects : Prop :=
  ∀ (kmax n v i j : Nat) (r : Regs kmax), 2 ≤ kmax → n ≤ Config.nmax kmax → v < 2 ^ n →
    1 ≤ i → i ≤ 2 ^ parityCount n - 1 → 1 ≤ j → j ≤ 2 ^ parityCount n - 1 → i ≠ j →
    ∃ c res, (r.runWords [encodeWord kmax (.build 0 n), encodeWord kmax (.encode 0 v)]).Response .ok c 0 0 ∧
      (r.runWords [encodeWord kmax (.build 0 n), encodeWord kmax (.encode 0 v),
        encodeWord kmax (.decode (2 ^ parityCount n - 1) (flip (flip c i) j))]).Response .ok res (i ^^^ j)
          (flip (flip (flip c i) j) (i ^^^ j)) ∧
      (res = v ↔ ∀ x ∈ [i, j, i ^^^ j], ∀ m < n, dataPos (parityCount n) m ≠ some x)

/-! ## Errors, responses and frames -/

/-- R52: every command word has an outcome from every state; it is IllegalOp exactly for op = 0b11, whatever len and arg
hold, and then no layout register changes. -/
def Obligations.EveryWordHasAnOutcome : Prop :=
  ∀ (s : State) (w : CmdWord Config.refKmax),
    ∃ t : State, exec (decodeWord Config.refKmax w) s = .next t ∧
      (t.regs.st = .illegalOp ↔ w.extractLsb' 20 2 = 3#2) ∧
      (w.extractLsb' 20 2 = 3#2 → t.regs.SameLayout s.regs)

/-- R129: IllegalOp, code 5, is raised exactly by op = 0b11, whatever len, arg and LV are. -/
def Obligations.IllegalOpExactly : Prop :=
  Status.illegalOp.code = 5 ∧
  ∀ (kmax : Nat) (r : Regs kmax) (w : CmdWord kmax),
    ((r.transact w).st = .illegalOp ↔ w.extractLsb' (Config.tmax kmax + Config.lw kmax) 2 = 3#2)

/-- The reserved opcode completes: IllegalOp and zeros, the layout and all else unchanged (60_exceptions.md sections 1
and 2). -/
def Obligations.ReservedCompletes : Prop :=
  ∀ (s : State) (len arg : Nat),
    ∃ t : State, exec (.reserved len arg) s = .next t ∧ t.outputs.st = 5 ∧ t.regs.Response .illegalOp 0 0 0 ∧
      t.regs.SameLayout s.regs ∧ s.Completed t

/-- R128: NoLayout, code 3, is the outcome of ENCODE and of DECODE with LV = 0, and of nothing else; and LV is 0 exactly as
long as no BUILD has succeeded since reset. -/
def Obligations.NoLayoutExactly : Prop :=
  Status.noLayout.code = 3 ∧
  (∀ (kmax : Nat) (r : Regs kmax) (i : Instr),
    ((r.apply i).st = .noLayout ↔
      (∃ len arg, i = .encode len arg ∨ i = .decode len arg) ∧ r.lv = false)) ∧
  ∀ (kmax : Nat) (ws : List (CmdWord kmax)),
    ((Regs.reset kmax).runWords ws).lv = true ↔
      ∃ w ∈ ws, ∃ len arg, decodeWord kmax w = .build len arg ∧ arg ≤ Config.nmax kmax

/-- R133: a command raises at most one error, the first check that fails: IllegalOp, then NoLayout, then the operand check;
and if none fails it completes with OK. -/
def Obligations.FirstFailingCheckIsReported : Prop :=
  (∀ (kmax : Nat) (r : Regs kmax) (i : Instr), (r.apply i).st = (firstError kmax i r).getD .ok) ∧
  (∀ (kmax : Nat) (r : Regs kmax) (len arg : Nat), (r.apply (.reserved len arg)).st = .illegalOp) ∧
  (∀ (kmax : Nat) (r : Regs kmax) (len arg : Nat), r.lv = false →
    (r.apply (.encode len arg)).st = .noLayout ∧ (r.apply (.decode len arg)).st = .noLayout) ∧
  (∀ (kmax : Nat) (r : Regs kmax) (len arg : Nat), Config.nmax kmax < arg →
    (r.apply (.build len arg)).st = .widthUnsupported) ∧
  (∀ (kmax : Nat) (r : Regs kmax) (len arg : Nat), r.lv = true → 2 ^ r.ln.toNat ≤ arg →
    (r.apply (.encode len arg)).st = .inputWidthMismatch) ∧
  ∀ (kmax : Nat) (r : Regs kmax) (len arg : Nat), r.lv = true → r.lt.toNat < len →
    (r.apply (.decode len arg)).st = .inputTooLong

/-- R131: a command that ends with an error writes its code and zeros, leaves the layout registers, pulses rsp_valid and
makes the block ready again. -/
def Obligations.ErrorResponse : Prop :=
  ∀ (i : Instr) (s t : State), exec i s = .next t → t.regs.st ≠ .ok →
    firstError Config.refKmax i s.regs = some t.regs.st ∧ t.outputs.st = t.regs.st.code ∧
    t.regs.res = 0 ∧ t.regs.syn = 0 ∧ t.regs.cwc = 0 ∧ t.regs.SameLayout s.regs ∧
    t.rspValid = true ∧ t.outputs.cmdReady = true

/-- R22: the response is a function of the command's word and of the layout registers as they were, and of nothing else; a
field that a command does not produce is 0. -/
def Obligations.ResponseIsAFunctionOfWordAndLayout : Prop :=
  ∀ (kmax : Nat) (r r' : Regs kmax) (w : CmdWord kmax),
    (r.SameLayout r' → r.transact w = r'.transact w) ∧
    (∀ len arg, decodeWord kmax w = .build len arg →
      (r.transact w).res = 0 ∧ (r.transact w).syn = 0 ∧ (r.transact w).cwc = 0) ∧
    (∀ len arg, decodeWord kmax w = .encode len arg → (r.transact w).syn = 0 ∧ (r.transact w).cwc = 0) ∧
    (∀ len arg, decodeWord kmax w = .reserved len arg →
      (r.transact w).res = 0 ∧ (r.transact w).syn = 0 ∧ (r.transact w).cwc = 0) ∧
    ((r.transact w).st ≠ .ok → (r.transact w).res = 0 ∧ (r.transact w).syn = 0 ∧ (r.transact w).cwc = 0)

/-- The frame of every command: ENCODE, DECODE and the reserved opcode leave the four layout registers, and so does a BUILD
that fails; the host's coming edges are never touched (10_state.md section 2, 40_layout_build.md section 5). -/
def Obligations.CommandFrame : Prop :=
  ∀ (i : Instr) (s t : State), exec i s = .next t →
    s.Completed t ∧
    ((∀ len arg, i ≠ .build len arg) → t.regs.SameLayout s.regs) ∧
    (∀ len arg, i = .build len arg → 11 < arg → t.regs.SameLayout s.regs)
end

