-- ==== Sys2Proof/Laws/Words.lean ====
section
/-! SUPPORT. What the word operations do, bit by bit; the fields of a packed word. -/

namespace Sys2Proof.Machine

/-- A position of a flipped word. -/
theorem pos_flip (w i j : Nat) (hi : 1 ≤ i) (hj : 1 ≤ j) : pos (flip w i) j = (pos w j ^^ decide (i = j)) := by
  have h : (i - 1 = j - 1) ↔ i = j := by omega
  simp [pos, flip, Nat.shiftLeft_eq, Nat.testBit_two_pow, h]

/-- Flipping twice at one position changes nothing. -/
@[simp] theorem flip_flip (w i : Nat) : flip (flip w i) i = w := by simp [flip]

/-- The bit that `setpos` writes, and every other bit. -/
theorem testBit_setpos (w i b : Nat) (v : Bool) :
    (setpos w i v).testBit b = if b = i - 1 then v else w.testBit b := by
  unfold setpos
  split
  · split <;> simp_all [pos]
  · have h2 : (decide (i - 1 = b)) = decide (b = i - 1) := by rw [decide_eq_decide]; omega
    simp only [flip, Nat.one_shiftLeft, Nat.testBit_xor, Nat.testBit_two_pow, h2]
    split
    · subst_vars
      simp_all [pos]
      cases v <;> simp_all
    · simp_all

/-- A position of a word after `setpos`. -/
theorem pos_setpos (w i j : Nat) (v : Bool) (hi : 1 ≤ i) (hj : 1 ≤ j) :
    pos (setpos w i v) j = if j = i then v else pos w j := by
  have h : (j - 1 = i - 1) ↔ j = i := by omega
  simp [pos, testBit_setpos, h]

/-- `collect n f` has bit `b` equal to `f b` below `n`, and no other bit. -/
@[simp] theorem testBit_collect (n : Nat) (f : Nat → Bool) (b : Nat) :
    (collect n f).testBit b = (decide (b < n) && f b) := by
  unfold collect
  induction n with
  | zero => simp
  | succ n ih =>
    rw [List.range_succ, List.foldl_append]
    simp only [List.foldl_cons, List.foldl_nil, testBit_setpos, Nat.add_sub_cancel, ih]
    split
    · subst_vars
      simp
    · rename_i h
      have : (b < n + 1) ↔ b < n := by omega
      simp [this]

/-- `collect n f` fits `n` bits. -/
theorem collect_lt (n : Nat) (f : Nat → Bool) : collect n f < 2 ^ n := by
  refine Nat.lt_pow_two_of_testBit _ fun b hb => ?_
  simp [Nat.not_lt.mpr hb]

/-- Two collected words are equal when their bits are. -/
theorem collect_congr {n : Nat} {f g : Nat → Bool} (h : ∀ b < n, f b = g b) : collect n f = collect n g := by
  refine Nat.eq_of_testBit_eq fun b => ?_
  by_cases hb : b < n <;> simp [hb, h]

/-- The bits of a slice. -/
@[simp] theorem testBit_lowBits (v n b : Nat) : (lowBits v n).testBit b = (decide (b < n) && v.testBit b) := by
  rw [lowBits, Nat.testBit_mod_two_pow]

/-- A slice fits its width. -/
theorem lowBits_lt (v n : Nat) : lowBits v n < 2 ^ n := Nat.mod_lt _ (Nat.two_pow_pos n)

/-- Masking is taking the low bits. -/
theorem and_mask (v L : Nat) : v &&& mask L = lowBits v L := Nat.and_two_pow_sub_one_eq_mod v L

@[simp] theorem xorOver_nil (f : Nat → Bool) : xorOver [] f = false := rfl

/-- The running flag of an XOR can be taken out. -/
theorem foldl_xor_start (S : List Nat) (f : Nat → Bool) (a : Bool) :
    S.foldl (fun acc i => acc ^^ f i) a = (a ^^ xorOver S f) := by
  induction S generalizing a with
  | nil => simp [xorOver]
  | cons i S ih =>
    rw [List.foldl_cons, ih, show xorOver (i :: S) f = _ from ih (false ^^ f i)]
    cases a <;> cases f i <;> simp

@[simp] theorem xorOver_cons (i : Nat) (S : List Nat) (f : Nat → Bool) :
    xorOver (i :: S) f = (f i ^^ xorOver S f) := by
  rw [xorOver, List.foldl_cons, foldl_xor_start]; simp

@[simp] theorem xorOver_append (S S' : List Nat) (f : Nat → Bool) :
    xorOver (S ++ S') f = (xorOver S f ^^ xorOver S' f) := by
  induction S with
  | nil => simp
  | cons i S ih => simp [ih]

/-- The XOR of a pointwise XOR. -/
theorem xorOver_xor (S : List Nat) (f g : Nat → Bool) :
    xorOver S (fun i => f i ^^ g i) = (xorOver S f ^^ xorOver S g) := by
  induction S with
  | nil => rfl
  | cons i S ih =>
    simp only [xorOver_cons, ih]
    cases f i <;> cases g i <;> cases xorOver S f <;> simp

theorem xorOver_congr {S : List Nat} {f g : Nat → Bool} (h : ∀ i ∈ S, f i = g i) : xorOver S f = xorOver S g := by
  induction S with
  | nil => rfl
  | cons i S ih => rw [xorOver_cons, xorOver_cons, h i (by simp), ih fun j hj => h j (by simp [hj])]

/-- Leaving out elements is counting them as false. -/
theorem xorOver_filter (S : List Nat) (p f : Nat → Bool) :
    xorOver (S.filter p) f = xorOver S fun i => p i && f i := by
  induction S with
  | nil => rfl
  | cons i S ih => by_cases h : p i <;> simp [h, ih]

/-- The XOR over a list without repeats of a test for one element says whether the element is there. -/
theorem xorOver_eq_mem {S : List Nat} (hS : S.Nodup) (a : Nat) :
    xorOver S (fun i => decide (a = i)) = decide (a ∈ S) := by
  induction S with
  | nil => simp
  | cons i S ih =>
    have hi := (List.nodup_cons.mp hS).1
    rw [xorOver_cons, ih (List.nodup_cons.mp hS).2]
    by_cases h : a = i
    · subst h; simp [hi]
    · simp [h]

end Sys2Proof.Machine
end

