-- ==== Sys2Proof/Laws/Layout.lean ====
section
/-! SUPPORT. The Layout unit: the search for `k`, the power-of-two test, and the lists of positions. -/

namespace Sys2Proof.Machine

/-- The search returns the least exponent, if all smaller ones fail and the fuel reaches `n + 1`. -/
theorem searchParityCount_least (n : Nat) : ∀ fuel k, (∀ j < k, 2 ^ j < n + j + 1) → n + 1 ≤ k + fuel →
    n + searchParityCount n fuel k + 1 ≤ 2 ^ searchParityCount n fuel k ∧
      ∀ j < searchParityCount n fuel k, 2 ^ j < n + j + 1
  | 0, k, hk, hf => by
    refine ⟨?_, hk⟩
    have h1 : k < 2 ^ k := Nat.lt_two_pow_self
    simp only [searchParityCount]
    obtain ⟨m, rfl⟩ : ∃ m, k = m + 1 := ⟨k - 1, by omega⟩
    have h2 : m < 2 ^ m := Nat.lt_two_pow_self
    rw [Nat.pow_succ]
    omega
  | fuel + 1, k, hk, hf => by
    rw [searchParityCount]
    split
    · rename_i h
      refine searchParityCount_least n fuel (k + 1) (fun j hj => ?_) (by omega)
      rcases Nat.lt_succ_iff_lt_or_eq.mp hj with hj | rfl
      · exact hk j hj
      · exact h
    · exact ⟨by omega, hk⟩

/-- `K(n)` satisfies the inequality and no smaller exponent does. -/
theorem parityCount_least (n : Nat) :
    n + parityCount n + 1 ≤ 2 ^ parityCount n ∧ ∀ j < parityCount n, 2 ^ j < n + j + 1 :=
  searchParityCount_least n (n + 1) 0 (by simp) (by simp)

/-- The document's bit trick picks out exactly the powers of two. -/
theorem isParity_iff (i : Nat) : isParity i = true ↔ ∃ p, i = 2 ^ p := by
  constructor
  · intro h
    simp only [isParity, Bool.and_eq_true, decide_eq_true_eq, beq_iff_eq] at h
    obtain ⟨h1, h2⟩ := h
    refine ⟨i.log2, ?_⟩
    have hne : i ≠ 0 := by omega
    have hle := Nat.log2_self_le hne
    by_contra hlt
    have hlt' : 2 ^ i.log2 ≤ i - 1 := by omega
    have hub : i < 2 ^ (i.log2 + 1) := Nat.lt_log2_self
    have b1 : i.testBit i.log2 = true := Nat.testBit_of_two_pow_le_and_two_pow_add_one_gt hle hub
    have b2 : (i - 1).testBit i.log2 = true :=
      Nat.testBit_of_two_pow_le_and_two_pow_add_one_gt hlt' (by omega)
    have := congrArg (fun v => v.testBit i.log2) h2
    simp [b1, b2] at this
  · rintro ⟨p, rfl⟩
    have h : 1 ≤ 2 ^ p := Nat.one_le_two_pow
    simp only [isParity, Bool.and_eq_true, decide_eq_true_eq, beq_iff_eq]
    refine ⟨h, ?_⟩
    rw [Nat.and_two_pow_sub_one_eq_mod]
    simp

@[simp] theorem isParity_two_pow (p : Nat) : isParity (2 ^ p) = true := (isParity_iff _).mpr ⟨p, rfl⟩

@[simp] theorem mem_indices (k i : Nat) : i ∈ indices k ↔ 1 ≤ i ∧ i ≤ codewordLength k := by
  simp only [indices, List.mem_map, List.mem_range]
  constructor
  · rintro ⟨j, h, rfl⟩; omega
  · intro h; exact ⟨i - 1, by omega, by omega⟩

/-- The positions are met in increasing order. -/
theorem indices_sorted (k : Nat) : (indices k).Pairwise (· < ·) := by
  rw [indices, List.pairwise_map]
  exact List.pairwise_lt_range.imp (by intro a b h; omega)

theorem indices_nodup (k : Nat) : (indices k).Nodup :=
  (indices_sorted k).imp fun h => Nat.ne_of_lt h

@[simp] theorem mem_cover (k p i : Nat) : i ∈ cover k p ↔ (1 ≤ i ∧ i ≤ codewordLength k) ∧ i.testBit p = true := by
  simp [cover, digit]

theorem cover_nodup (k p : Nat) : (cover k p).Nodup := (indices_nodup k).filter _

@[simp] theorem mem_dataPositions (k i : Nat) :
    i ∈ dataPositions k ↔ (1 ≤ i ∧ i ≤ codewordLength k) ∧ ∀ p, i ≠ 2 ^ p := by
  have h := isParity_iff i
  cases hb : isParity i <;> simp_all [dataPositions]

theorem dataPositions_sorted (k : Nat) : (dataPositions k).Pairwise (· < ·) := (indices_sorted k).filter _

/-- One more parity bit appends the positions above `2^k`, all of them data positions. -/
theorem dataPositions_succ (k : Nat) :
    dataPositions (k + 1) = dataPositions k ++ (List.range (2 ^ k - 1)).map (· + 2 ^ k + 1) := by
  have hpos : 1 ≤ 2 ^ k := Nat.one_le_two_pow
  have hlen : codewordLength (k + 1) = codewordLength k + (1 + (2 ^ k - 1)) := by
    simp only [codewordLength, Nat.pow_succ]; omega
  have hidx : indices (k + 1) = indices k ++ ([2 ^ k] ++ (List.range (2 ^ k - 1)).map (· + 2 ^ k + 1)) := by
    simp only [indices, hlen, List.range_add, List.map_append, List.map_map]
    congr 1
    simp only [show List.range 1 = [0] from rfl, List.map_cons, List.map_nil, Function.comp_def]
    congr 1
    · simp [codewordLength, Nat.sub_add_cancel hpos]
    · refine List.map_congr_left fun a _ => ?_
      simp only [codewordLength]
      omega
  simp only [dataPositions, hidx, List.filter_append]
  congr 1
  have h1 : List.filter (fun i => !isParity i) [2 ^ k] = [] := by simp
  rw [h1, List.nil_append, List.filter_eq_self]
  intro i hi
  simp only [List.mem_map, List.mem_range] at hi
  obtain ⟨a, ha, rfl⟩ := hi
  by_contra hc
  obtain ⟨p, hp⟩ := (isParity_iff (a + 2 ^ k + 1)).mp (by simpa using hc)
  have hlo : k < p := (Nat.pow_lt_pow_iff_right (by omega : 1 < 2)).mp (by omega)
  have hhi : p < k + 1 := (Nat.pow_lt_pow_iff_right (by omega : 1 < 2)).mp (by rw [Nat.pow_succ]; omega)
  omega

/-- There are `m = T - k` data positions. -/
@[simp] theorem length_dataPositions (k : Nat) : (dataPositions k).length = dataCount k := by
  induction k with
  | zero => rfl
  | succ k ih =>
    have h : k < 2 ^ k := Nat.lt_two_pow_self
    simp only [dataPositions_succ, List.length_append, ih, List.length_map, List.length_range, dataCount,
      codewordLength, Nat.pow_succ]
    omega

/-- The data positions that exist, and that each is one. -/
theorem dataPos_eq_some {k j i : Nat} (h : dataPos k j = some i) : j < dataCount k ∧ i ∈ dataPositions k := by
  rw [dataPos] at h
  obtain ⟨hj, rfl⟩ := List.getElem?_eq_some_iff.mp h
  exact ⟨by simpa using hj, List.getElem_mem hj⟩

/-- `DataPos(k, j)` exists for every `j < m`. -/
theorem exists_dataPos {k j : Nat} (h : j < dataCount k) : ∃ i, dataPos k j = some i :=
  ⟨(dataPositions k)[j]'(by simpa using h), List.getElem?_eq_getElem _⟩

/-- Two different data bits have two different positions. -/
theorem dataPos_inj {k j j' i : Nat} (h : dataPos k j = some i) (h' : dataPos k j' = some i) : j = j' := by
  rw [dataPos] at h h'
  obtain ⟨hj, e⟩ := List.getElem?_eq_some_iff.mp h
  obtain ⟨hj', e'⟩ := List.getElem?_eq_some_iff.mp h'
  have hn : (dataPositions k).Nodup := (dataPositions_sorted k).imp fun h => Nat.ne_of_lt h
  exact (List.Nodup.getElem_inj_iff hn).mp (e.trans e'.symm)

end Sys2Proof.Machine
end

