-- ==== Sys2Proof/Laws/Codec.lean ====
section
/-! SUPPORT. What the syndrome unit, the encoder and the decoder compute, bit by bit. -/

namespace Sys2Proof.Machine

@[simp] theorem testBit_syndrome (k w p : Nat) :
    (syndrome k w).testBit p = (decide (p < k) && groupParity k w p) := testBit_collect k _ p

/-- The syndrome has `k` bits. -/
theorem syndrome_lt (k w : Nat) : syndrome k w < 2 ^ k := collect_lt k _

/-- Flipping position `i` toggles exactly the groups that cover it. -/
theorem groupParity_flip {k w i : Nat} (hi : 1 ≤ i) (hT : i ≤ codewordLength k) (p : Nat) :
    groupParity k (flip w i) p = (groupParity k w p ^^ i.testBit p) := by
  have h : ∀ j ∈ cover k p, pos (flip w i) j = (pos w j ^^ decide (i = j)) := fun j hj =>
    pos_flip w i j hi ((mem_cover k p j).mp hj).1.1
  rw [groupParity, xorOver_congr h, xorOver_xor, xorOver_eq_mem (cover_nodup k p), groupParity]
  cases hb : i.testBit p <;> simp [hb, hi, hT]

/-- The group parities of an XOR of two words. -/
theorem groupParity_xor (k w v p : Nat) :
    groupParity k (w ^^^ v) p = (groupParity k w p ^^ groupParity k v p) := by
  rw [groupParity, groupParity, groupParity, ← xorOver_xor]
  exact xorOver_congr fun i _ => Nat.testBit_xor w v (i - 1)

/-- One round of `Scatter` writes one data position. -/
theorem pos_placeDataBit (k d u j i : Nat) (hi : 1 ≤ i) :
    pos (placeDataBit k d u j) i = if dataPos k j = some i then d.testBit j else pos u i := by
  unfold placeDataBit
  split
  · rename_i i' h
    have h' := ((mem_dataPositions k i').mp (dataPos_eq_some h).2).1.1
    rw [pos_setpos u i' i _ h' hi, h]
    simp [eq_comm]
  · rename_i h
    simp [h]

/-- `Scatter` sets the position of each data bit that is 1, and no other. -/
theorem pos_scatter (k n d i : Nat) (hi : 1 ≤ i) :
    pos (scatter k n d) i = true ↔ ∃ j < n, dataPos k j = some i ∧ d.testBit j = true := by
  unfold scatter
  induction n with
  | zero => simp [pos]
  | succ n ih =>
    rw [List.range_succ, List.foldl_append, List.foldl_cons, List.foldl_nil, pos_placeDataBit _ _ _ _ _ hi]
    split
    · rename_i h
      constructor
      · exact fun hd => ⟨n, by omega, h, hd⟩
      · rintro ⟨j, _, hj, hd⟩
        exact dataPos_inj hj h ▸ hd
    · rename_i h
      rw [ih]
      constructor
      · rintro ⟨j, hj, h1, h2⟩; exact ⟨j, by omega, h1, h2⟩
      · rintro ⟨j, hj, h1, h2⟩
        refine ⟨j, ?_, h1, h2⟩
        rcases Nat.lt_succ_iff_lt_or_eq.mp hj with hj | rfl
        · exact hj
        · exact absurd h1 h

/-- Storing the parity bits writes position `2^p` for each group `p`, and no other. -/
theorem pos_storeParity (k u par i : Nat) (hi : 1 ≤ i) :
    pos (storeParity k u par) i = true ↔
      (∃ p < k, i = 2 ^ p ∧ par.testBit p = true) ∨ ((∀ p < k, i ≠ 2 ^ p) ∧ pos u i = true) := by
  unfold storeParity
  induction k with
  | zero => simp
  | succ k ih =>
    rw [List.range_succ, List.foldl_append, List.foldl_cons, List.foldl_nil,
      pos_setpos _ _ _ _ Nat.one_le_two_pow hi]
    split
    · rename_i h
      subst h
      constructor
      · exact fun hp => .inl ⟨k, by omega, rfl, hp⟩
      · rintro (⟨p, _, hp, hb⟩ | ⟨hn, _⟩)
        · rwa [Nat.pow_right_injective (le_refl 2) hp]
        · exact absurd rfl (hn k (by omega))
    · rename_i h
      rw [ih]
      constructor
      · rintro (⟨p, hp, h1, h2⟩ | ⟨hn, hu⟩)
        · exact .inl ⟨p, by omega, h1, h2⟩
        · refine .inr ⟨fun p hp => ?_, hu⟩
          rcases Nat.lt_succ_iff_lt_or_eq.mp hp with hp | rfl
          · exact hn p hp
          · exact h
      · rintro (⟨p, hp, h1, h2⟩ | ⟨hn, hu⟩)
        · refine .inl ⟨p, ?_, h1, h2⟩
          rcases Nat.lt_succ_iff_lt_or_eq.mp hp with hp | rfl
          · exact hp
          · exact absurd h1 h
        · exact .inr ⟨fun p hp => hn p (by omega), hu⟩

@[simp] theorem testBit_gather (k c j : Nat) :
    (gather k c).testBit j = (decide (j < dataCount k) && readDataBit k c j) := testBit_collect _ _ j

/-- What the decoder reads at an existing data position. -/
theorem readDataBit_eq {k c j i : Nat} (h : dataPos k j = some i) : readDataBit k c j = pos c i := by
  simp [readDataBit, h]

@[simp] theorem correct_zero (w : Nat) : correct w 0 = w := rfl

theorem correct_of_ne {w s : Nat} (h : s ≠ 0) : correct w s = flip w s := by simp [correct, h]

end Sys2Proof.Machine
end

