-- ==== Sys2Proof/Laws/State.lean ====
section
/-! SUPPORT. One lemma per field and update, so that no proof unfolds a record update. -/

namespace Sys2Proof.Machine

section Registers
variable {kmax : Nat} (r : Regs kmax) (st e : Status) (res syn cwc n k T : Nat)

@[simp] theorem respond_lv : (r.respond st res syn cwc).lv = r.lv := rfl
@[simp] theorem respond_ln : (r.respond st res syn cwc).ln = r.ln := rfl
@[simp] theorem respond_lk : (r.respond st res syn cwc).lk = r.lk := rfl
@[simp] theorem respond_lt : (r.respond st res syn cwc).lt = r.lt := rfl
@[simp] theorem respond_st : (r.respond st res syn cwc).st = st := rfl
@[simp] theorem respond_res : (r.respond st res syn cwc).res = BitVec.ofNat _ res := rfl
@[simp] theorem respond_syn : (r.respond st res syn cwc).syn = BitVec.ofNat _ syn := rfl
@[simp] theorem respond_cwc : (r.respond st res syn cwc).cwc = BitVec.ofNat _ cwc := rfl

@[simp] theorem raise_lv : (r.raise e).lv = r.lv := rfl
@[simp] theorem raise_ln : (r.raise e).ln = r.ln := rfl
@[simp] theorem raise_lk : (r.raise e).lk = r.lk := rfl
@[simp] theorem raise_lt : (r.raise e).lt = r.lt := rfl
@[simp] theorem raise_st : (r.raise e).st = e := rfl
@[simp] theorem raise_res : (r.raise e).res = 0 := rfl
@[simp] theorem raise_syn : (r.raise e).syn = 0 := rfl
@[simp] theorem raise_cwc : (r.raise e).cwc = 0 := rfl

@[simp] theorem setLayout_lv : (r.setLayout n k T).lv = true := rfl
@[simp] theorem setLayout_ln : (r.setLayout n k T).ln = BitVec.ofNat _ n := rfl
@[simp] theorem setLayout_lk : (r.setLayout n k T).lk = BitVec.ofNat _ k := rfl
@[simp] theorem setLayout_lt : (r.setLayout n k T).lt = BitVec.ofNat _ T := rfl
@[simp] theorem setLayout_st : (r.setLayout n k T).st = r.st := rfl
@[simp] theorem setLayout_res : (r.setLayout n k T).res = r.res := rfl
@[simp] theorem setLayout_syn : (r.setLayout n k T).syn = r.syn := rfl
@[simp] theorem setLayout_cwc : (r.setLayout n k T).cwc = r.cwc := rfl

@[simp] theorem reset_lv : (Regs.reset kmax).lv = false := rfl
@[simp] theorem reset_ln : (Regs.reset kmax).ln = 0 := rfl
@[simp] theorem reset_lk : (Regs.reset kmax).lk = 0 := rfl
@[simp] theorem reset_lt : (Regs.reset kmax).lt = 0 := rfl
@[simp] theorem reset_st : (Regs.reset kmax).st = .ok := rfl
@[simp] theorem reset_res : (Regs.reset kmax).res = 0 := rfl
@[simp] theorem reset_syn : (Regs.reset kmax).syn = 0 := rfl
@[simp] theorem reset_cwc : (Regs.reset kmax).cwc = 0 := rfl

end Registers

section Handshake
variable {kmax : Nat} (b : Block kmax) (r : Regs kmax) (w : CmdWord kmax)

@[simp] theorem complete_regs : (b.complete r).regs = r := rfl
@[simp] theorem complete_inFlight : (b.complete r).inFlight = none := rfl
@[simp] theorem complete_rspValid : (b.complete r).rspValid = true := rfl
@[simp] theorem complete_edges : (b.complete r).edges = b.edges := rfl

@[simp] theorem advance_regs : b.advance.regs = b.regs := rfl
@[simp] theorem advance_inFlight : b.advance.inFlight = b.inFlight := rfl
@[simp] theorem advance_rspValid : b.advance.rspValid = b.rspValid := rfl
@[simp] theorem advance_edges : b.advance.edges = b.edges.tail := rfl

@[simp] theorem applyReset_regs : b.applyReset.regs = Regs.reset kmax := rfl
@[simp] theorem applyReset_inFlight : b.applyReset.inFlight = none := rfl
@[simp] theorem applyReset_rspValid : b.applyReset.rspValid = false := rfl
@[simp] theorem applyReset_edges : b.applyReset.edges = b.edges := rfl

@[simp] theorem accept_regs : (b.accept w).regs = b.regs := rfl
@[simp] theorem accept_inFlight : (b.accept w).inFlight = some w := rfl
@[simp] theorem accept_rspValid : (b.accept w).rspValid = false := rfl
@[simp] theorem accept_edges : (b.accept w).edges = b.edges := rfl

@[simp] theorem hold_regs : b.hold.regs = b.regs := rfl
@[simp] theorem hold_inFlight : b.hold.inFlight = b.inFlight := rfl
@[simp] theorem hold_rspValid : b.hold.rspValid = false := rfl
@[simp] theorem hold_edges : b.hold.edges = b.edges := rfl

@[simp] theorem execute_regs (i : Instr) : (b.execute i).regs = b.regs.apply i := rfl
@[simp] theorem execute_inFlight (i : Instr) : (b.execute i).inFlight = none := rfl
@[simp] theorem execute_rspValid (i : Instr) : (b.execute i).rspValid = true := rfl
@[simp] theorem execute_edges (i : Instr) : (b.execute i).edges = b.edges := rfl

@[simp] theorem present_regs (ws : List (CmdWord kmax)) : (b.present ws).regs = b.regs := rfl
@[simp] theorem present_inFlight (ws : List (CmdWord kmax)) : (b.present ws).inFlight = b.inFlight := rfl
@[simp] theorem present_rspValid (ws : List (CmdWord kmax)) : (b.present ws).rspValid = b.rspValid := rfl
@[simp] theorem present_edges (ws : List (CmdWord kmax)) :
    (b.present ws).edges = schedule (ws.map Job.quick) ++ b.edges := rfl

@[simp] theorem resetBlock_regs : (Block.reset kmax).regs = Regs.reset kmax := rfl
@[simp] theorem resetBlock_inFlight : (Block.reset kmax).inFlight = none := rfl
@[simp] theorem resetBlock_rspValid : (Block.reset kmax).rspValid = false := rfl
@[simp] theorem resetBlock_edges : (Block.reset kmax).edges = [] := rfl

@[simp] theorem outputs_cmdReady : b.outputs.cmdReady = b.inFlight.isNone := rfl
@[simp] theorem outputs_st : b.outputs.st = b.regs.st.code := rfl

@[simp] theorem idle_rst : (Edge.idle (kmax := kmax)).rst = false := rfl
@[simp] theorem idle_cmdValid : (Edge.idle (kmax := kmax)).cmdValid = false := rfl
@[simp] theorem idle_finish : (Edge.idle (kmax := kmax)).finish = true := rfl
@[simp] theorem offer_rst : (Edge.offer w).rst = false := rfl
@[simp] theorem offer_cmdValid : (Edge.offer w).cmdValid = true := rfl
@[simp] theorem offer_cmd : (Edge.offer w).cmd = w := rfl
@[simp] theorem resetEdge_rst : (Edge.reset (kmax := kmax)).rst = true := rfl

theorem edge_nil (h : b.edges = []) : b.edge = Edge.idle := by simp [Block.edge, h]
theorem edge_cons {e : Edge kmax} {es : List (Edge kmax)} (h : b.edges = e :: es) : b.edge = e := by
  simp [Block.edge, h]

end Handshake

section Machine
variable (s : State) (nbits v : Nat)

@[simp] theorem resetState_toBlock : State.reset.toBlock = Block.reset Config.refKmax := rfl
@[simp] theorem withFetchWord_regs : (s.withFetchWord nbits v).regs = s.regs := rfl
@[simp] theorem withFetchWord_inFlight :
    (s.withFetchWord nbits v).inFlight = some (BitVec.ofNat _ (v % 2 ^ nbits)) := rfl
@[simp] theorem withFetchWord_rspValid : (s.withFetchWord nbits v).rspValid = false := rfl
@[simp] theorem withFetchWord_edges : (s.withFetchWord nbits v).edges = Edge.idle :: s.edges := rfl
@[simp] theorem withFetchWord_edge : (s.withFetchWord nbits v).edge = Edge.idle := rfl
@[simp] theorem presentState_toBlock (ws : List (CmdWord Config.refKmax)) :
    (s.present ws).toBlock = s.toBlock.present ws := rfl

end Machine

end Sys2Proof.Machine
end

