-- ==== Sys2Proof/Laws/Commands.lean ====
section
/-! SUPPORT. The cases of each command on the registers, and what `exec` makes of them: nothing else can happen. -/

namespace Sys2Proof.Machine

section Registers
variable {kmax : Nat} (r : Regs kmax)

theorem build_refused {arg : Nat} (h : Config.nmax kmax < arg) : r.build arg = r.raise .widthUnsupported := by
  simp [Regs.build, widthUnsupported, dataWidthOperand, h]

theorem build_done {arg : Nat} (h : arg ≤ Config.nmax kmax) :
    r.build arg = (r.setLayout arg (parityCount arg) (codewordLength (parityCount arg))).respond .ok 0 0 0 := by
  simp [Regs.build, widthUnsupported, dataWidthOperand, Nat.not_lt.mpr h]

/-- The shift test of R126 is a comparison. -/
theorem inputWidthMismatch_iff (d : Nat) : inputWidthMismatch r d = true ↔ 2 ^ r.ln.toNat ≤ d := by
  have h := Nat.two_pow_pos r.ln.toNat
  rw [inputWidthMismatch, bne_iff_ne, Nat.shiftRight_eq_div_pow, Ne, Nat.div_eq_zero_iff]
  omega

theorem encode_noLayout (arg : Nat) (h : r.lv = false) : r.encode arg = r.raise .noLayout := by
  simp [Regs.encode, noLayout, h]

theorem encode_refused {arg : Nat} (h : r.lv = true) (hd : 2 ^ r.ln.toNat ≤ arg) :
    r.encode arg = r.raise .inputWidthMismatch := by
  simp [Regs.encode, noLayout, h, dataUnitOperand, (inputWidthMismatch_iff r arg).mpr hd]

theorem encode_done {arg : Nat} (h : r.lv = true) (hd : arg < 2 ^ r.ln.toNat) :
    r.encode arg = r.respond .ok (encodeUnit r.lk.toNat r.ln.toNat arg) 0 0 := by
  have hm : inputWidthMismatch r arg = false := by
    rw [← Bool.not_eq_true, inputWidthMismatch_iff]; omega
  simp [Regs.encode, noLayout, h, dataUnitOperand, hm]

theorem decode_noLayout (len arg : Nat) (h : r.lv = false) : r.decode len arg = r.raise .noLayout := by
  simp [Regs.decode, noLayout, h]

theorem decode_refused {len : Nat} (arg : Nat) (h : r.lv = true) (hL : r.lt.toNat < len) :
    r.decode len arg = r.raise .inputTooLong := by
  simp [Regs.decode, noLayout, h, inputTooLong, lengthOperand, hL]

/-- The corrected word of a DECODE of `w` under `k` parity bits. -/
theorem decode_done {len : Nat} (arg : Nat) (h : r.lv = true) (hL : len ≤ r.lt.toNat) :
    r.decode len arg = r.respond .ok
      (resultUnit r.lk.toNat r.ln.toNat (correct (receivedWord len arg) (syndrome r.lk.toNat (receivedWord len arg))))
      (syndrome r.lk.toNat (receivedWord len arg))
      (correct (receivedWord len arg) (syndrome r.lk.toNat (receivedWord len arg))) := by
  simp [Regs.decode, noLayout, h, inputTooLong, lengthOperand, Nat.not_lt.mpr hL]

end Registers

section Layouts
variable {kmax : Nat} (r : Regs kmax)

@[simp] theorem sameLayout_refl : r.SameLayout r := ⟨rfl, rfl, rfl, rfl⟩

@[simp] theorem respond_sameLayout (st : Status) (res syn cwc : Nat) : (r.respond st res syn cwc).SameLayout r :=
  ⟨rfl, rfl, rfl, rfl⟩

@[simp] theorem raise_sameLayout (e : Status) : (r.raise e).SameLayout r := ⟨rfl, rfl, rfl, rfl⟩

/-- ENCODE writes no layout register (R74, R96). -/
@[simp] theorem encode_sameLayout (arg : Nat) : (r.encode arg).SameLayout r := by
  unfold Regs.encode
  dsimp only
  split
  · exact raise_sameLayout r _
  · split
    · exact raise_sameLayout r _
    · exact respond_sameLayout r _ _ _ _

/-- DECODE writes no layout register (R74, R116). -/
@[simp] theorem decode_sameLayout (len arg : Nat) : (r.decode len arg).SameLayout r := by
  unfold Regs.decode
  split
  · exact raise_sameLayout r _
  · split
    · exact raise_sameLayout r _
    · exact respond_sameLayout r _ _ _ _

/-- The reserved opcode writes no layout register (R52). -/
@[simp] theorem reserved_sameLayout : r.reserved.SameLayout r := raise_sameLayout r _

end Layouts

/-- Every arm of `exec` completes the command as a block of any size does. -/
theorem exec_eq (i : Instr) (s : State) : exec i s = .next ⟨s.toBlock.execute i⟩ := by cases i <;> rfl

/-- The outcome of `exec`, read backwards. -/
theorem exec_next {i : Instr} {s t : State} (h : exec i s = .next t) : t = ⟨s.toBlock.execute i⟩ := by
  rw [exec_eq] at h
  exact (Host.Outcome.next.inj h).symm

/-- The machine's step is the clock of the block of the reference size. -/
theorem step_eq (s : State) : step s = .next ⟨s.toBlock.clock⟩ := by
  unfold step Block.clock
  cases s.toBlock.event with
  | complete w => exact exec_eq _ _
  | reset => rfl
  | accept w => rfl
  | hold => rfl

/-- The outcome of a step, read backwards. -/
theorem step_next {s t : State} (h : step s = .next t) : t.toBlock = s.toBlock.clock := by
  rw [step_eq] at h
  exact (congrArg State.toBlock (Host.Outcome.next.inj h)).symm

/-- Everything one rising edge can do. -/
theorem clock_cases {kmax : Nat} (b : Block kmax) :
    (b.edge.rst = true ∧ b.clock = b.advance.applyReset) ∨
    (b.edge.rst = false ∧ b.edge.finish = true ∧ ∃ w, b.inFlight = some w ∧
      b.clock = b.advance.complete (b.regs.transact w)) ∨
    (b.edge.rst = false ∧ b.edge.finish = false ∧ ∃ w, b.inFlight = some w ∧ b.clock = b.advance.hold) ∨
    (b.edge.rst = false ∧ b.edge.cmdValid = true ∧ b.inFlight = none ∧ b.clock = b.advance.accept b.edge.cmd) ∨
    (b.edge.rst = false ∧ b.edge.cmdValid = false ∧ b.inFlight = none ∧ b.clock = b.advance.hold) := by
  unfold Block.clock Block.event
  cases hr : b.edge.rst with
  | true => exact .inl ⟨rfl, rfl⟩
  | false =>
    cases hw : b.inFlight with
    | some w =>
      cases hf : b.edge.finish with
      | true => exact .inr (.inl ⟨rfl, rfl, w, rfl, rfl⟩)
      | false => exact .inr (.inr (.inl ⟨rfl, rfl, w, rfl, rfl⟩))
    | none =>
      cases hv : b.edge.cmdValid with
      | true => exact .inr (.inr (.inr (.inl ⟨rfl, rfl, rfl, rfl⟩)))
      | false => exact .inr (.inr (.inr (.inr ⟨rfl, rfl, rfl, rfl⟩)))

/-- Everything one step of the machine can do. -/
theorem step_cases {s t : State} (h : step s = .next t) :
    (s.edge.rst = true ∧ t.toBlock = s.toBlock.advance.applyReset) ∨
    (s.edge.rst = false ∧ s.edge.finish = true ∧ ∃ w, s.inFlight = some w ∧
      t.toBlock = s.toBlock.advance.complete (s.regs.transact w)) ∨
    (s.edge.rst = false ∧ s.edge.finish = false ∧ ∃ w, s.inFlight = some w ∧ t.toBlock = s.toBlock.advance.hold) ∨
    (s.edge.rst = false ∧ s.edge.cmdValid = true ∧ s.inFlight = none ∧
      t.toBlock = s.toBlock.advance.accept s.edge.cmd) ∨
    (s.edge.rst = false ∧ s.edge.cmdValid = false ∧ s.inFlight = none ∧ t.toBlock = s.toBlock.advance.hold) := by
  rw [step_next h]
  exact clock_cases s.toBlock

/-- Running on after a step of the machine. -/
theorem run_of_step {s t : State} (h : step s = .next t) (n : Nat) :
    Host.Core.run core (n + 1) s = Host.Core.run core n t := by
  have h' : core.step s = .next t := h
  simp only [Host.Core.run, h']

/-- Running on after an edge of a block of any size. -/
theorem run_of_clock {kmax : Nat} (b : Block kmax) (n : Nat) :
    Host.Core.run (machineOf kmax) (n + 1) b = Host.Core.run (machineOf kmax) n b.clock := by
  have h : (machineOf kmax).step b = .next b.clock := rfl
  simp only [Host.Core.run, h]

/-- Two runs in a row are one run, for any machine. -/
theorem run_add (M : Host.Core) {a : Nat} {s u : M.State} (h : M.run a s = .next u) (b : Nat) :
    M.run (a + b) s = M.run b u := by
  induction a generalizing s with
  | zero =>
    cases h
    rw [Nat.zero_add]
  | succ a ih =>
    rw [Nat.succ_add]
    rcases hs : M.step s with t | r | r
    · simp only [Host.Core.run, hs] at h ⊢
      exact ih h
    · simp only [Host.Core.run, hs] at h
      cases h
    · simp only [Host.Core.run, hs] at h
      cases h

end Sys2Proof.Machine
end

