-- ==== Sys2Proof/Laws/Decode.lean ====
section
/-! SUPPORT. The packed command word as a sum, and the bounds of its fields. -/

namespace Sys2Proof

theorem wellFormed_iff (kmax : Nat) (i : Instr) :
    wellFormed kmax i = true ↔ lenOf i < 2 ^ Config.lw kmax ∧ argOf i < 2 ^ Config.tmax kmax := by
  cases i <;> simp [wellFormed, lenFits, argFits, lenOf, argOf]

theorem opcode_lt (i : Instr) : opcode i < 4 := by cases i <;> simp [opcode]

/-- The fields do not overlap, so the word is their weighted sum. -/
theorem encodeNumber_eq {kmax : Nat} {i : Instr} (h : wellFormed kmax i = true) :
    encodeNumber kmax i = (opcode i * 2 ^ Config.lw kmax + lenOf i) * 2 ^ Config.tmax kmax + argOf i := by
  obtain ⟨hl, ha⟩ := (wellFormed_iff kmax i).mp h
  rw [encodeNumber, Nat.add_comm (Config.tmax kmax), Nat.shiftLeft_add,
    ← Nat.shiftLeft_or_distrib, ← Nat.shiftLeft_add_eq_or_of_lt hl, ← Nat.shiftLeft_add_eq_or_of_lt ha,
    Nat.shiftLeft_eq, Nat.shiftLeft_eq]

/-- The packed word of a well-formed command fits the port. -/
theorem encodeNumber_lt {kmax : Nat} {i : Instr} (h : wellFormed kmax i = true) :
    encodeNumber kmax i < 2 ^ Config.cmdw kmax := by
  obtain ⟨hl, ha⟩ := (wellFormed_iff kmax i).mp h
  have ho := opcode_lt i
  have hw : 2 ^ Config.cmdw kmax = 4 * 2 ^ Config.lw kmax * 2 ^ Config.tmax kmax := by
    simp only [Config.cmdw, Nat.pow_add]
  rw [encodeNumber_eq h, hw]
  generalize 2 ^ Config.lw kmax = A at *
  generalize 2 ^ Config.tmax kmax = B at *
  have h1 : opcode i * A + lenOf i + 1 ≤ 4 * A := by
    have := Nat.mul_le_mul_right A (show opcode i + 1 ≤ 4 by omega)
    rw [Nat.add_mul, Nat.one_mul] at this
    omega
  have h2 := Nat.mul_le_mul_right B h1
  rw [Nat.add_mul, Nat.one_mul] at h2
  omega

/-- A field never exceeds its width. -/
theorem lenField_lt (kmax : Nat) (w : CmdWord kmax) : lenField kmax w < 2 ^ Config.lw kmax :=
  Nat.mod_lt _ (Nat.two_pow_pos _)

theorem argField_lt (kmax : Nat) (w : CmdWord kmax) : argField kmax w < 2 ^ Config.tmax kmax :=
  Nat.mod_lt _ (Nat.two_pow_pos _)

end Sys2Proof
end

