-- ==== Sys2Proof/Laws/PerInstr.lean ====
section
/-! SUPPORT. The family `TableRow`: the packed word of a command of the reference instance is one its row of
spec/opcode_table.json matches. -/

namespace Sys2Proof.Laws.TableRow

/-- Column `match` of the opcode table. -/
def rowMatch : Instr → Nat
  | .build _ _ => 0x000000
  | .encode _ _ => 0x100000
  | .decode _ _ => 0x200000
  | .reserved _ _ => 0x300000

/-- Column `mask` of the opcode table. -/
def rowMask : Nat := 0x300000

/-- A well-formed command of the reference instance packs into 22 bits that its row matches. -/
def Statement (i : Instr) : Prop :=
  wellFormed Config.refKmax i = true →
    encodeNumber Config.refKmax i < 2 ^ 22 ∧ encodeNumber Config.refKmax i &&& rowMask = rowMatch i

/-- Masking a sum with a multiple of `2^20`. -/
theorem and_rowMask {op low : Nat} (ho : op < 4) (hl : low < 2 ^ 20) : (op * 2 ^ 20 + low) &&& rowMask = op * 2 ^ 20 := by
  have h : op * 2 ^ 20 + low = op <<< 20 ||| low := by
    rw [← Nat.shiftLeft_eq, Nat.shiftLeft_add_eq_or_of_lt hl]
  rw [h, Nat.and_or_distrib_right]
  have h1 : low &&& rowMask = 0 := by
    refine Nat.eq_of_testBit_eq fun b => ?_
    rw [Nat.testBit_and, Nat.zero_testBit, show rowMask = 3 <<< 20 from rfl, Nat.testBit_shiftLeft]
    by_cases hb : 20 ≤ b
    · rw [Nat.testBit_lt_two_pow (Nat.lt_of_lt_of_le hl (Nat.pow_le_pow_right (by omega) hb))]; rfl
    · simp [hb]
  rw [h1, Nat.or_zero]
  interval_cases op <;> rfl

theorem of_eq {i : Instr} (hm : rowMatch i = opcode i * 2 ^ 20) : Statement i := by
  intro h
  refine ⟨encodeNumber_lt h, ?_⟩
  obtain ⟨hl, ha⟩ := (wellFormed_iff _ i).mp h
  have hl' : lenOf i < 32 := hl
  have ha' : argOf i < 32768 := ha
  have he : encodeNumber Config.refKmax i = opcode i * 2 ^ 20 + (lenOf i * 2 ^ 15 + argOf i) := by
    rw [encodeNumber_eq h]
    show (opcode i * 32 + lenOf i) * 32768 + argOf i = opcode i * 1048576 + (lenOf i * 32768 + argOf i)
    omega
  rw [he, hm, and_rowMask (opcode_lt i) (by omega)]

theorem build (len arg : Nat) : Statement (.build len arg) := of_eq (by norm_num [rowMatch, opcode])
theorem encode (len arg : Nat) : Statement (.encode len arg) := of_eq (by norm_num [rowMatch, opcode])
theorem decode (len arg : Nat) : Statement (.decode len arg) := of_eq (by norm_num [rowMatch, opcode])
theorem reserved (len arg : Nat) : Statement (.reserved len arg) := of_eq (by norm_num [rowMatch, opcode])

end Sys2Proof.Laws.TableRow
end

