-- ==== Sys2Proof/Tests/Slice0.lean ====
section
/-! SUPPORT. Tests on single steps, with results taken from the tables of spec/95_test_vectors.md, and a witness for the
hypotheses of each statement of Certificates/Slice0/Obligations.lean. -/

-- One theorem after the other: many small evaluations at once ask for more threads than the memory limit allows.
set_option Elab.async false

namespace Sys2Proof.Tests
open Sys2Proof Sys2Proof.Machine

/-- The reset state with the layout registers set as a BUILD leaves them. -/
def withLayout (n k T : Nat) : State := { State.reset with regs := State.reset.regs.setLayout n k T }

/-- The state is next and satisfies `p`. -/
def nextIs (o : Host.Outcome State Fault Refusal) (p : State → Bool) : Bool :=
  match o with
  | .next t => p t
  | .fault _ => false
  | .refused _ => false

/-- A completed step with the given `ST / RES / SYN / CWC` and layout registers `LV, LN, LK, LT`. -/
def responds (s : State) (word st res syn cwc : Nat) (layout : List Nat) : Bool :=
  nextIs (step (s.withFetchWord 24 word)) fun t =>
    t.rspValid && t.inFlight.isNone &&
    [t.outputs.st.toNat, t.outputs.res.toNat, t.outputs.syn.toNat, t.outputs.cwc.toNat] == [st, res, syn, cwc] &&
    [t.outputs.lv.toNat, t.outputs.ln.toNat, t.outputs.lk.toNat, t.outputs.lt.toNat] == layout

/-! ### WellFormed: an ill-formed term for each check -/

theorem test_len_too_wide_refused : wellFormed Config.refKmax (.decode 32 0) = false := by decide
theorem test_arg_too_wide_refused : wellFormed Config.refKmax (.build 0 32768) = false := by decide
theorem test_encode_arg_too_wide_refused : wellFormed Config.refKmax (.encode 0 32768) = false := by decide
theorem test_reserved_len_too_wide_refused : wellFormed Config.refKmax (.reserved 32 0) = false := by decide
theorem test_largest_fields_fit : wellFormed Config.refKmax (.reserved 31 32767) = true := by decide

/-! ### Decoding (the words of each family written out bit by bit stand in Decode.lean) -/

/-- Section 2.4, `DECODE 0x0606, 31`. -/
theorem test_decode_longest_len : decodeTableWord 24 0x2F8606 = some (.decode 31 0x0606) := by decide
/-- A number above the 22 bits of the port is no command. -/
theorem test_wide_number_rejected : decodeTableWord 24 0x400000 = none := by decide

/-! ### One step per command -/

/-- Section 2.1, `BUILD 1` with the ignored len = 9. -/
theorem test_build_one : responds State.reset 0x048001 0 0 0 0 [1, 1, 2, 3] = true := by decide +kernel
/-- Section 2.6, `BUILD 12` under n = 4: refused, the layout stays. -/
theorem test_build_refused : responds (withLayout 4 3 7) 0x00000C 4 0 0 0 [1, 4, 3, 7] = true := by decide +kernel
/-- Section 2.3, n = 11, d = 1365. -/
theorem test_encode_eleven_bits :
    responds (withLayout 11 4 15) 0x100555 0 0x552D 0 0 [1, 11, 4, 15] = true := by decide +kernel
/-- Section 2.3, n = 7, `ENCODE 128`. -/
theorem test_encode_refused : responds (withLayout 7 4 15) 0x100080 2 0 0 0 [1, 7, 4, 15] = true := by decide +kernel
/-- Section 2.5, positions 3 and 12 of the codeword of `'a'` flipped. -/
theorem test_decode_double_error :
    responds (withLayout 7 4 15) 0x278E02 0 96 15 0x4E02 [1, 7, 4, 15] = true := by decide +kernel
/-- Section 2.4, `DECODE 0x7FD5, 5` under n = 4: bits above len are ignored, position 7 is corrected. -/
theorem test_decode_short_masked :
    responds (withLayout 4 3 7) 0x22FFD5 0 11 7 0x0055 [1, 4, 3, 7] = true := by decide +kernel
/-- Section 2.6, the reserved opcode, all ones, at reset. -/
theorem test_reserved_at_reset : responds State.reset 0x3FFFFF 5 0 0 0 [0, 0, 0, 0] = true := by decide +kernel
/-- Section 2.6, the reserved opcode under n = 4. -/
theorem test_reserved_keeps_layout :
    responds (withLayout 4 3 7) 0x3ABCDE 5 0 0 0 [1, 4, 3, 7] = true := by decide +kernel
/-- Section 2.6, `DECODE 0, 31` at reset: NoLayout before the length check. -/
theorem test_noLayout_first : responds State.reset 0x2F8000 3 0 0 0 [0, 0, 0, 0] = true := by decide +kernel
/-- Section 2.7: busy with `ENCODE 97`, `rst` = 1: dropped without a response. -/
theorem test_reset_drops_command :
    nextIs (step { withLayout 7 4 15 with inFlight := some 0x100061, edges := [Edge.reset] })
      (fun t => t == State.reset) = true := by decide +kernel
/-- Section 2.7: `rst` and `cmd_valid` at the same edge: not accepted. -/
theorem test_reset_beats_acceptance :
    nextIs (step { State.reset with edges := [{ Edge.offer 0x000007 with rst := true }] })
      (fun t => t == State.reset) = true := by decide +kernel

/-! ### Witnesses: each hypothesis of the statements is met, at the edge of its range -/

/-- A busy edge: the host offers another word meanwhile, and nothing completes. -/
def busyEdge : Edge Config.refKmax := { Edge.offer 0x3FFFFF with finish := false }

/-- Busy with `ENCODE 97` under n = 7; the host is `es`. -/
def busy (es : List (Edge Config.refKmax)) : State := { withLayout 7 4 15 with inFlight := some 0x100061, edges := es }

/-- `ENCODE 97` after two edges with nothing offered, busy for one edge. -/
def slowJob : Job Config.refKmax where
  idle := [Edge.idle, { busyEdge with cmdValid := false }]
  offer := { Edge.offer 0x100061 with finish := false }
  busy := [busyEdge]
  last := Edge.idle

theorem wit_DecodeOfEncode : wellFormed Config.refKmax (.decode 31 32767) = true := by decide
theorem wit_NumberDecodesIffItFits :
    2 ^ 22 - 1 < 2 ^ Config.cmdw Config.refKmax ∧ 2 ^ Config.cmdw Config.refKmax ≤ 2 ^ 22 := by decide
theorem wit_LenIgnoredByBuildAndEncode :
    assembleLine Config.refKmax false (.build (.number 7)) = .ok 0x000007 ∧
    assembleLine Config.refKmax false (.encode (.ascii 'a')) = .ok 0x100061 := by decide
theorem wit_AssemblerGivesTheCommand :
    (Literal.number 32767).value < 2 ^ Config.tmax Config.refKmax ∧
    (Literal.number 31).value < 2 ^ Config.lw Config.refKmax ∧
    2 ^ Config.lw Config.refKmax ≤ (Literal.number 32).value ∧
    2 ^ Config.tmax Config.refKmax ≤ (Literal.number 32768).value ∧
    (Literal.number 0x3FFFFF).value < 2 ^ Config.cmdw Config.refKmax ∧
    2 ^ Config.cmdw Config.refKmax ≤ (Literal.number 0x400000).value := by decide
theorem wit_ExternalRepresentation : 14 < 15 ∧ 32767 < 2 ^ 15 := by decide
theorem wit_StepRunsTheDecodedCommand :
    (busy []).inFlight = some 0x100061 ∧ (busy []).edge.rst = false ∧ (busy []).edge.finish = true ∧
    decodeTableWord 24 0x3FFFFF = some (.reserved 31 32767) := by decide
theorem wit_ResetWinsAtEveryEdge :
    (busy [Edge.reset]).edge.rst = true ∧ ({ Block.reset 3 with edges := [Edge.reset] } : Block 3).edge.rst = true := by
  decide
theorem wit_AcceptanceRule :
    step { State.reset with edges := [Edge.offer 0x000007] } = .next { State.reset with inFlight := some 0x000007 } ∧
    step (busy [busyEdge]) = .next (busy []) ∧ (busy []).inFlight = some 0x100061 := ⟨rfl, rfl, rfl⟩
theorem wit_RegistersHoldBetweenEvents :
    (busy [busyEdge]).edge.rst = false ∧ (busy [busyEdge]).inFlight = some 0x100061 ∧
    (busy [busyEdge]).edge.finish = false ∧
    State.reset.inFlight = none ∧ State.reset.edge.cmdValid = false ∧ State.reset.edge.rst = false ∧
    ({ State.reset with edges := [busyEdge] } : State).edge.cmdValid = true := by decide
theorem wit_ResponsePulseMarksCompletion :
    step { State.reset with inFlight := some 0x3FFFFF } =
      .next ⟨State.reset.toBlock.complete (State.reset.regs.raise .illegalOp)⟩ ∧
    (State.reset.toBlock.complete (State.reset.regs.raise .illegalOp)).rspValid = true := ⟨rfl, rfl⟩
theorem wit_AcceptedCommandCompletes :
    (busy [busyEdge]).inFlight = some 0x100061 ∧ (∀ e ∈ (busy [busyEdge]).edges, e.rst = false) ∧
    ({ Block.reset 3 with inFlight := some 0 } : Block 3).inFlight = some 0 ∧
    (∀ e ∈ (Block.reset 3).edges, e.rst = false) := by decide
theorem wit_ClockedBlockRefinesSerialExecution :
    (∀ j ∈ [slowJob, Job.quick 0x278606], j.Proper) ∧
    ({ withLayout 7 4 15 with edges := schedule [slowJob, Job.quick 0x278606] } : State).inFlight = none ∧
    ({ withLayout 7 4 15 with edges := schedule [slowJob, Job.quick 0x278606] } : State).edges =
      schedule [slowJob, Job.quick 0x278606] ++ [] ∧
    ((Block.reset 3).present [0]).edges = schedule [Job.quick 0] ++ [] ∧
    (∀ j ∈ [Job.quick (0 : CmdWord 3)], j.Proper) := by decide
theorem wit_ClockOfEveryBlock :
    (busy [Edge.reset]).edge.rst = true ∧ (busy []).edge.rst = false ∧ (busy []).inFlight = some 0x100061 ∧
    (busy []).edge.finish = true ∧ (busy [busyEdge]).edge.finish = false ∧ (Block.reset 3).inFlight = none ∧
    ((Block.reset 3).present [0]).edge.cmdValid = true ∧ (Block.reset 3).edge.cmdValid = false := by decide
/-- A block with KMAX = 3 at work: `BUILD 4` completes with K(4) = 3 and T = 7 (section 2.1, which holds for every KMAX
that admits the width). -/
theorem test_smaller_block_builds :
    ((Block.reset 3).present [encodeWord 3 (.build 0 4)]).clock.clock =
      ⟨(Regs.reset 3).setLayout 4 3 7, none, true, []⟩ := by decide +kernel
theorem wit_TraceListsEveryResponse : 0 < ([0x000007] : List (CmdWord Config.refKmax)).length := by decide
theorem wit_StepKeepsLegal :
    State.reset.Ok ∧ step { State.reset with inFlight := some 0x3FFFFF } =
      .next ⟨State.reset.toBlock.complete (State.reset.regs.raise .illegalOp)⟩ ∧
    State.Ok { State.reset with inFlight := some 0x3FFFFF } ∧ 2 ≤ 2 ∧ (Block.reset 2).Ok :=
  ⟨by decide, rfl, by decide, by decide, by decide⟩
theorem wit_EveryWordKeepsRegistersLegal : 2 ≤ Config.refKmax ∧ (withLayout 7 4 15).regs.Ok := by decide
/-- A reset edge, a BUILD 11 that completes, and a BUILD 12 that is refused (section 2.1). -/
theorem wit_LayoutChangesOnlyByBuildOrReset :
    step (busy [Edge.reset]) = .next State.reset ∧
    responds (withLayout 7 4 15) 0x00000B 0 0 0 0 [1, 11, 4, 15] = true ∧
    responds State.reset 0x00000B 0 0 0 0 [1, 11, 4, 15] = true ∧
    responds (withLayout 7 4 15) 0x00000C 4 0 0 0 [1, 7, 4, 15] = true ∧
    (State.reset.withFetchWord 24 0x00000B).edge.rst = false ∧
    (State.reset.withFetchWord 24 0x00000B).edge.finish = true ∧
    (State.reset.withFetchWord 24 0x00000B).inFlight = some 0x00000B ∧
    decodeWord Config.refKmax 0x00000B = .build 0 11 := ⟨rfl, by decide +kernel⟩
theorem wit_ParityCountIsLeast : 11 ≤ 12 ∧ 3 < 4 := by decide
theorem wit_PositionTable : bitPosition 4 15 ∈ positions 4 ∧ 3 < 4 := by decide
theorem wit_ParityAndDataPositions : 2 ≤ 2 ∧ 4 ≤ 5 ∧ 10 < dataCount 4 := by decide
theorem wit_ParityCheckMatrix : 3 < 4 ∧ 15 ∈ dataPositions 4 ∧ 1 ≤ 15 ∧ 15 ≤ 2 ^ 4 - 1 := by decide
theorem wit_BuildCompletes : 11 ≤ 11 := by decide
theorem wit_BuildInstallsTheLayout : 2 ≤ Config.refKmax ∧ 11 ≤ Config.nmax Config.refKmax := by decide
theorem wit_LayoutIsAFunctionOfTheWidth : 11 ≤ Config.nmax Config.refKmax := by decide
theorem wit_WidthUnsupportedExactly : 2 ≤ 2 ∧ Config.nmax 2 < 2 := by decide
theorem wit_EmptyLayout : 2 ≤ 2 := by decide
theorem wit_SyndromeForms : 2 ^ 15 - 1 < 2 ^ (2 ^ 4 - 1) := by decide
theorem wit_SyndromeLaws : 1 ≤ 15 ∧ 15 ≤ 2 ^ 4 - 1 := by decide
theorem wit_EveryWordIsNearOneCodeword :
    0x0406 < 2 ^ (2 ^ 4 - 1) ∧ syndrome 4 0x0406 ≠ 0 ∧ 1 ≤ 10 ∧ 10 ≤ 2 ^ 4 - 1 ∧
    isCodeword 4 (flip 0x0406 10) = true := by decide +kernel
theorem wit_ParityVectorIsSyndrome : 3 < 4 := by decide
theorem wit_EncodeCompletes :
    (withLayout 7 4 15).regs.lv = true ∧ 127 < 2 ^ (withLayout 7 4 15).regs.ln.toNat ∧
    (withLayout 7 4 15).regs.LayoutOk ∧ dataPos (withLayout 7 4 15).regs.lk.toNat 6 = some 11 ∧
    dataPos (withLayout 7 4 15).regs.lk.toNat 10 = some 15 ∧ 3 < (withLayout 7 4 15).regs.lk.toNat := by
  decide +kernel
theorem wit_EncodedWordIsCodeword : 11 ≤ dataCount 4 := by decide
theorem wit_EncodeDistanceThree : 11 ≤ dataCount 4 ∧ 2047 < 2 ^ 11 ∧ 2046 < 2 ^ 11 ∧ 2047 ≠ 2046 := by decide
theorem wit_InputWidthMismatchExactly :
    ((withLayout 7 4 15).regs.apply (.encode 0 128)).st = .inputWidthMismatch := by decide +kernel
theorem wit_DecodeCompletes :
    (withLayout 7 4 15).regs.lv = true ∧ 15 ≤ (withLayout 7 4 15).regs.lt.toNat ∧
    (withLayout 7 4 15).regs.LayoutOk ∧ 6 < (withLayout 7 4 15).regs.ln.toNat ∧
    dataPos (withLayout 7 4 15).regs.lk.toNat 6 = some 11 ∧
    ((withLayout 7 4 15).regs.decode 15 0x0606).syn = 0 ∧ ((withLayout 7 4 15).regs.decode 15 0x4606).syn ≠ 0 := by
  decide +kernel
theorem wit_DecodeMasksAboveLength :
    0x7FD5 % 2 ^ 5 = 0x15 % 2 ^ 5 ∧ 5 ≤ (withLayout 4 3 7).regs.lt.toNat := by decide
theorem wit_InputTooLongExactly :
    ((withLayout 4 3 7).regs.apply (.decode 8 0)).st = .inputTooLong := by decide +kernel
theorem wit_CorrectedWordIsCodeword :
    2 ≤ Config.refKmax ∧ (withLayout 7 4 15).regs.LayoutOk ∧
    ((withLayout 7 4 15).regs.apply (.decode 15 0x7FFF)).st = .ok := by decide +kernel
theorem wit_RoundTrip : 2 ≤ 4 ∧ 11 ≤ Config.nmax 4 ∧ 2047 < 2 ^ 11 := by decide
theorem wit_SingleErrorCorrection :
    2 ≤ 4 ∧ 11 ≤ Config.nmax 4 ∧ 2047 < 2 ^ 11 ∧ 1 ≤ 15 ∧ 15 ≤ 2 ^ parityCount 11 - 1 := by decide
theorem wit_DoubleErrorMiscorrects :
    2 ≤ 4 ∧ 11 ≤ Config.nmax 4 ∧ 2047 < 2 ^ 11 ∧ 1 ≤ 1 ∧ 1 ≤ 2 ^ parityCount 11 - 1 ∧ 1 ≤ 15 ∧
    15 ≤ 2 ^ parityCount 11 - 1 ∧ 1 ≠ 15 := by decide
theorem wit_EveryWordHasAnOutcome :
    (0x3FFFFF : CmdWord Config.refKmax).extractLsb' 20 2 = 3#2 := by decide
theorem wit_FirstFailingCheckIsReported :
    State.reset.regs.lv = false ∧ Config.nmax Config.refKmax < 12 ∧
    (withLayout 7 4 15).regs.lv = true ∧ 2 ^ (withLayout 7 4 15).regs.ln.toNat ≤ 128 ∧
    (withLayout 7 4 15).regs.lt.toNat < 16 := by decide
theorem wit_ErrorResponse :
    exec (.encode 0 128) (withLayout 7 4 15) =
      .next ⟨(withLayout 7 4 15).toBlock.execute (.encode 0 128)⟩ ∧
    ((withLayout 7 4 15).regs.apply (.encode 0 128)).st ≠ .ok := ⟨exec_eq _ _, by decide +kernel⟩
theorem wit_ResponseIsAFunctionOfWordAndLayout :
    (withLayout 7 4 15).regs.SameLayout ((withLayout 7 4 15).regs.raise .illegalOp) ∧
    decodeWord Config.refKmax 0x048001 = .build 9 1 ∧ decodeWord Config.refKmax 0x1F8001 = .encode 31 1 ∧
    decodeWord Config.refKmax 0x3FFFFF = .reserved 31 32767 ∧
    (State.reset.regs.transact (kmax := Config.refKmax) 0x3FFFFF).st ≠ .ok := by decide +kernel
theorem wit_CommandFrame :
    exec (.build 0 12) (withLayout 7 4 15) =
      .next ⟨(withLayout 7 4 15).toBlock.execute (.build 0 12)⟩ ∧
    (∀ len arg, Instr.encode 0 0 ≠ .build len arg) ∧ 11 < 12 := ⟨exec_eq _ _, by simp, by decide⟩

end Sys2Proof.Tests
end

/-! PROOFS. The state (spec/10_state.md): what a command makes of the response registers, and what they are at reset. -/

namespace Sys2Proof.Machine

section Registers
variable {kmax : Nat} {r r' : Regs kmax}

/-- Registers with the same layout differ by a response only. -/
theorem eq_respond_of_sameLayout (h : r.SameLayout r') :
    r = r'.respond r.st r.res.toNat r.syn.toNat r.cwc.toNat := by
  obtain ⟨hlv, hln, hlk, hlt⟩ := h
  cases r
  simp_all [Regs.respond]

/-- No command reads the response registers, and every command overwrites all four of them (R22). -/
theorem apply_respond (i : Instr) (r : Regs kmax) (st : Status) (res syn cwc : Nat) :
    (r.respond st res syn cwc).apply i = r.apply i := by
  cases i <;> rfl

/-- What a command does is a function of the command and the layout registers (R22). -/
theorem apply_eq_of_sameLayout (h : r.SameLayout r') (i : Instr) : r.apply i = r'.apply i := by
  rw [eq_respond_of_sameLayout h, apply_respond]

/-- Everything a command can end with: it raises the first error, or no check fails and it completes with `OK`
(R131, R133). -/
theorem apply_cases (i : Instr) (r : Regs kmax) :
    (∃ e, firstError kmax i r = some e ∧ e ≠ .ok ∧ r.apply i = r.raise e) ∨
    (firstError kmax i r = none ∧ (r.apply i).st = .ok) := by
  cases i with
  | build len arg =>
    cases hn : widthUnsupported kmax (dataWidthOperand arg) with
    | true => exact .inl ⟨.widthUnsupported, by simp [firstError, Regs.apply, Regs.build, hn]⟩
    | false => exact .inr (by simp [firstError, Regs.apply, Regs.build, hn])
  | encode len arg =>
    cases hv : noLayout r with
    | true => exact .inl ⟨.noLayout, by simp [firstError, Regs.apply, Regs.encode, hv]⟩
    | false =>
      cases hd : inputWidthMismatch r (dataUnitOperand arg) with
      | true => exact .inl ⟨.inputWidthMismatch, by simp [firstError, Regs.apply, Regs.encode, hv, hd]⟩
      | false => exact .inr (by simp [firstError, Regs.apply, Regs.encode, hv, hd])
  | decode len arg =>
    cases hv : noLayout r with
    | true => exact .inl ⟨.noLayout, by simp [firstError, Regs.apply, Regs.decode, hv]⟩
    | false =>
      cases hL : inputTooLong r (lengthOperand len) with
      | true => exact .inl ⟨.inputTooLong, by simp [firstError, Regs.apply, Regs.decode, hv, hL]⟩
      | false => exact .inr (by simp [firstError, Regs.apply, Regs.decode, hv, hL])
  | reserved len arg => exact .inl ⟨.illegalOp, rfl, by decide, rfl⟩

/-- A command that ends with an error status has raised it (R131). -/
theorem apply_eq_raise_of_st_ne_ok {i : Instr} (h : (r.apply i).st ≠ .ok) : r.apply i = r.raise (r.apply i).st := by
  obtain ⟨e, -, -, he⟩ | ⟨-, hok⟩ := apply_cases i r
  · rw [he, raise_st]
  · exact absurd hok h

end Registers

section Responses
variable {kmax : Nat} (r : Regs kmax) (arg : Nat)

/-- BUILD produces a status only (R73). -/
theorem build_results : (r.build arg).res = 0 ∧ (r.build arg).syn = 0 ∧ (r.build arg).cwc = 0 := by
  rcases Nat.lt_or_ge (Config.nmax kmax) arg with h | h
  · simp [build_refused r h]
  · simp [build_done r h]

/-- ENCODE produces no syndrome and no corrected codeword (R96). -/
theorem encode_syn_cwc : (r.encode arg).syn = 0 ∧ (r.encode arg).cwc = 0 := by
  cases hv : r.lv with
  | false => simp [encode_noLayout r arg hv]
  | true =>
    rcases Nat.lt_or_ge arg (2 ^ r.ln.toNat) with h | h
    · simp [encode_done r hv h]
    · simp [encode_refused r hv h]

end Responses

/-- Settles O56: a command overwrites the response without reading it, so only the word and the layout matter. -/
theorem responseIsAFunctionOfWordAndLayout : Obligations.ResponseIsAFunctionOfWordAndLayout := by
  unfold Obligations.ResponseIsAFunctionOfWordAndLayout
  intro kmax r r' w
  refine ⟨fun h => apply_eq_of_sameLayout h _, ?_, ?_, ?_, fun h => ?_⟩
  · intro len arg hw
    rw [Regs.transact, hw]
    exact build_results r arg
  · intro len arg hw
    rw [Regs.transact, hw]
    exact encode_syn_cwc r arg
  · intro len arg hw
    rw [Regs.transact, hw]
    exact ⟨raise_res r _, raise_syn r _, raise_cwc r _⟩
  · rw [Regs.transact, apply_eq_raise_of_st_ne_ok h]
    exact ⟨raise_res r _, raise_syn r _, raise_cwc r _⟩

/-- Settles O21: the field lemmas of the reset registers and of the reset block. -/
theorem resetValues : Obligations.ResetValues := by
  unfold Obligations.ResetValues
  refine ⟨fun kmax => ?_, resetBlock_regs, ?_, resetBlock_inFlight, resetBlock_rspValid, ?_⟩
  · exact ⟨reset_lv, reset_ln, reset_lk, reset_lt, reset_st, reset_res, reset_syn, reset_cwc⟩
  · rw [outputs_st, resetState_toBlock, resetBlock_regs, reset_st]
    rfl
  · rw [outputs_cmdReady, resetState_toBlock, resetBlock_inFlight]
    rfl

end Sys2Proof.Machine

/-! PROOFS. The port (spec/20_memory.md): when the block is ready and what an edge makes of the command in flight. -/

namespace Sys2Proof.Machine

section Acceptance
variable {kmax : Nat} {b : Block kmax}

/-- `cmd_ready` is 1 exactly when no command is in flight (R37). -/
theorem cmdReady_iff : b.outputs.cmdReady = true ↔ b.inFlight = none := by
  rw [outputs_cmdReady, Option.isNone_iff_eq_none]

/-- A ready block becomes busy exactly with the word that the host offers at an edge without a reset (R37). -/
theorem clock_inFlight_iff_of_ready (h : b.inFlight = none) (w : CmdWord kmax) :
    b.clock.inFlight = some w ↔ b.edge.rst = false ∧ b.edge.cmdValid = true ∧ b.edge.cmd = w := by
  obtain ⟨hr, hc⟩ | ⟨-, -, v, hv, -⟩ | ⟨-, -, v, hv, -⟩ | ⟨hr, hv, -, hc⟩ | ⟨hr, hv, -, hc⟩ := clock_cases b
  case inl => simp [hc, hr]
  case inr.inl | inr.inr.inl => cases h.symm.trans hv
  case inr.inr.inr.inl => simp [hc, hr, hv]
  case inr.inr.inr.inr => simp [hc, hv, h]

/-- A busy block keeps its command or drops it, and accepts no other (R37, R38). -/
theorem clock_inFlight_of_busy {v : CmdWord kmax} (h : b.inFlight = some v) :
    b.clock.inFlight = some v ∨ b.clock.inFlight = none := by
  obtain ⟨-, hc⟩ | ⟨-, -, _, -, hc⟩ | ⟨-, -, _, -, hc⟩ | ⟨-, -, hn, -⟩ | ⟨-, -, hn, -⟩ := clock_cases b
  case inl | inr.inl => exact .inr (by rw [hc]; rfl)
  case inr.inr.inl => exact .inl (by rw [hc]; exact h)
  case inr.inr.inr.inl | inr.inr.inr.inr => cases h.symm.trans hn

end Acceptance

/-- Settles O11: a ready block takes just the word offered without a reset, and a busy one takes none. -/
theorem acceptanceRule : Obligations.AcceptanceRule := by
  unfold Obligations.AcceptanceRule
  intro s t h
  rw [step_next h]
  refine ⟨cmdReady_iff, fun w => ⟨?_, ?_⟩, fun v hv => clock_inFlight_of_busy hv⟩
  · rintro ⟨hready, hw⟩
    obtain ⟨hrst, hvalid, hcmd⟩ := (clock_inFlight_iff_of_ready (cmdReady_iff.mp hready) w).mp hw
    exact ⟨hrst, hvalid, hready, hcmd⟩
  · rintro ⟨hrst, hvalid, hready, hcmd⟩
    exact ⟨hready, (clock_inFlight_iff_of_ready (cmdReady_iff.mp hready) w).mpr ⟨hrst, hvalid, hcmd⟩⟩

end Sys2Proof.Machine

/-! PROOFS. The encoding (spec/30_encoding.md): the fields of a command word as slices of the bus, the op field as the
selector of the command, and the field that BUILD and ENCODE ignore. -/

namespace Sys2Proof

section Fields
variable {kmax : Nat} (w : CmdWord kmax)

/-- The two most significant bits, and nothing above them (R46). -/
theorem opField_lt : opField kmax w < 4 := by
  have hw : w.toNat < 2 ^ (2 + Config.lw kmax + Config.tmax kmax) := w.isLt
  rw [Nat.add_assoc, Nat.pow_add, Nat.add_comm (Config.lw kmax)] at hw
  rw [opField, Nat.shiftRight_eq_div_pow, Nat.div_lt_iff_lt_mul (Nat.two_pow_pos _)]
  exact hw

theorem toNat_opSlice : (w.extractLsb' (Config.tmax kmax + Config.lw kmax) 2).toNat = opField kmax w := by
  rw [BitVec.extractLsb'_toNat]
  exact Nat.mod_eq_of_lt (opField_lt w)

theorem toNat_lenSlice : (w.extractLsb' (Config.tmax kmax) (Config.lw kmax)).toNat = lenField kmax w :=
  BitVec.extractLsb'_toNat _ _ _

theorem toNat_argSlice : (w.extractLsb' 0 (Config.tmax kmax)).toNat = argField kmax w :=
  BitVec.extractLsb'_toNat _ _ _

/-- The slice as the value that the op field holds. -/
theorem opSlice_eq_iff (c : BitVec 2) :
    w.extractLsb' (Config.tmax kmax + Config.lw kmax) 2 = c ↔ opField kmax w = c.toNat := by
  rw [← BitVec.toNat_inj, toNat_opSlice]

/-- The op field is the opcode of the command that the word stands for (R47). -/
theorem opcode_decodeWord : opcode (decodeWord kmax w) = opField kmax w := by
  have h := opField_lt w
  unfold decodeWord
  generalize opField kmax w = op at h ⊢
  interval_cases op <;> rfl

end Fields

section Opcodes
variable (i : Instr)

theorem opcode_eq_zero_iff : opcode i = 0 ↔ ∃ len arg, i = .build len arg := by
  cases i <;> simp [opcode]

theorem opcode_eq_one_iff : opcode i = 1 ↔ ∃ len arg, i = .encode len arg := by
  cases i <;> simp [opcode]

theorem opcode_eq_two_iff : opcode i = 2 ↔ ∃ len arg, i = .decode len arg := by
  cases i <;> simp [opcode]

theorem opcode_eq_three_iff : opcode i = 3 ↔ ∃ len arg, i = .reserved len arg := by
  cases i <;> simp [opcode]

end Opcodes

/-- Under the mask of the opcode table a word of the reference size is its op field, in place (R47). -/
theorem toNat_and_rowMask (w : CmdWord Config.refKmax) :
    (w &&& 0x300000).toNat = opField Config.refKmax w * 2 ^ 20 := by
  have hsplit : w.toNat = opField Config.refKmax w * 2 ^ 20 + w.toNat % 2 ^ 20 := by
    rw [opField, Nat.shiftRight_eq_div_pow]
    exact (Nat.div_add_mod' w.toNat (2 ^ 20)).symm
  calc (w &&& 0x300000).toNat
      = w.toNat &&& Laws.TableRow.rowMask := BitVec.toNat_and _ _
    _ = (opField Config.refKmax w * 2 ^ 20 + w.toNat % 2 ^ 20) &&& Laws.TableRow.rowMask := by rw [← hsplit]
    _ = opField Config.refKmax w * 2 ^ 20 :=
      Laws.TableRow.and_rowMask (opField_lt w) (Nat.mod_lt _ (Nat.two_pow_pos 20))

/-- A row of the opcode table matches exactly the words that stand for a command with that row's opcode (R47). -/
theorem and_rowMask_eq_iff (w : CmdWord Config.refKmax) (c : BitVec 2) :
    w &&& 0x300000 = BitVec.ofNat _ (c.toNat * 2 ^ 20) ↔ opcode (decodeWord Config.refKmax w) = c.toNat := by
  have hc : c.toNat * 2 ^ 20 < 2 ^ 22 := by omega
  have hr : (BitVec.ofNat (Config.cmdw Config.refKmax) (c.toNat * 2 ^ 20)).toNat = c.toNat * 2 ^ 20 :=
    (BitVec.toNat_ofNat _ _).trans (Nat.mod_eq_of_lt hc)
  rw [← BitVec.toNat_inj, toNat_and_rowMask, hr, opcode_decodeWord]
  omega

/-- The op slice of a word of the reference size is its bits 21 and 20. -/
theorem opSlice_ref_eq_iff (w : CmdWord Config.refKmax) (c : BitVec 2) :
    w.extractLsb' 20 2 = c ↔ opcode (decodeWord Config.refKmax w) = c.toNat := by
  rw [opcode_decodeWord]
  exact opSlice_eq_iff w c

/-- Settles O3: the decoder's selection is the op slice, and the mask of the table leaves just that slice in place. -/
theorem opFieldSelectsCommand : Obligations.OpFieldSelectsCommand := by
  unfold Obligations.OpFieldSelectsCommand
  refine ⟨fun kmax w => ?_, fun w => ⟨?_, ?_, ?_, ?_⟩⟩
  · rw [toNat_lenSlice, toNat_argSlice, decodeWord, ← toNat_opSlice]
    generalize w.extractLsb' (Config.tmax kmax + Config.lw kmax) 2 = op
    obtain rfl | rfl | rfl | rfl : op = 0#2 ∨ op = 1#2 ∨ op = 2#2 ∨ op = 3#2 := by
      revert op; decide
    all_goals rfl
  · exact (and_rowMask_eq_iff w 0).trans (opcode_eq_zero_iff _)
  · exact (and_rowMask_eq_iff w 1).trans (opcode_eq_one_iff _)
  · exact (and_rowMask_eq_iff w 2).trans (opcode_eq_two_iff _)
  · exact (and_rowMask_eq_iff w 3).trans (opcode_eq_three_iff _)

section Packed
variable {kmax : Nat} {i : Instr}

/-- The port holds the packed word of a well-formed command whole (R46). -/
theorem toNat_encodeWord (h : wellFormed kmax i = true) : (encodeWord kmax i).toNat = encodeNumber kmax i :=
  (BitVec.toNat_ofNat _ _).trans (Nat.mod_eq_of_lt (encodeNumber_lt h))

/-- Field `len` of the packed word of a well-formed command (R46). -/
theorem lenField_encodeWord (h : wellFormed kmax i = true) : lenField kmax (encodeWord kmax i) = lenOf i := by
  obtain ⟨hlen, harg⟩ := (wellFormed_iff kmax i).mp h
  rw [lenField, toNat_encodeWord h, encodeNumber_eq h, Nat.shiftRight_eq_div_pow, Nat.add_comm,
    Nat.add_mul_div_right _ _ (Nat.two_pow_pos _), Nat.div_eq_of_lt harg, Nat.zero_add, Nat.mul_add_mod',
    Nat.mod_eq_of_lt hlen]

end Packed

end Sys2Proof

namespace Sys2Proof.Machine

section Ignored
variable {kmax : Nat} (r : Regs kmax) (s : State) (len len' arg : Nat)

/-- BUILD reads `arg` only (R51). -/
theorem apply_build_len : r.apply (.build len arg) = r.apply (.build len' arg) := rfl

/-- ENCODE reads `arg` only (R51). -/
theorem apply_encode_len : r.apply (.encode len arg) = r.apply (.encode len' arg) := rfl

/-- Commands that do the same to the registers have the same outcome. -/
theorem exec_eq_of_apply_eq {i i' : Instr} (h : s.regs.apply i = s.regs.apply i') : exec i s = exec i' s := by
  rw [exec_eq, exec_eq, Block.execute, Block.execute, h]

end Ignored

/-- The assembler gives the packed word of a command that fits, and no other word (R55). -/
theorem assembleInstr_eq_ok_iff {kmax : Nat} {i : Instr} {w : CmdWord kmax} :
    assembleInstr kmax i = .ok w ↔ wellFormed kmax i = true ∧ encodeWord kmax i = w := by
  unfold assembleInstr
  split <;> simp [*]

/-- The assembler writes the field `len` of the command. -/
theorem lenField_of_assembleInstr {kmax : Nat} {i : Instr} {w : CmdWord kmax} (h : assembleInstr kmax i = .ok w) :
    lenField kmax w = lenOf i := by
  obtain ⟨hfits, rfl⟩ := assembleInstr_eq_ok_iff.mp h
  exact lenField_encodeWord hfits

/-- Settles O6: neither command reads `len`, and the assembler packs both with `len` = 0. -/
theorem lenIgnoredByBuildAndEncode : Obligations.LenIgnoredByBuildAndEncode := by
  unfold Obligations.LenIgnoredByBuildAndEncode
  refine ⟨fun len len' arg s => ⟨?_, ?_⟩, fun kmax len len' arg r => ⟨?_, ?_⟩, fun kmax full v w => ⟨?_, ?_⟩⟩
  · exact exec_eq_of_apply_eq s (apply_build_len s.regs len len' arg)
  · exact exec_eq_of_apply_eq s (apply_encode_len s.regs len len' arg)
  · exact apply_build_len r len len' arg
  · exact apply_encode_len r len len' arg
  · exact lenField_of_assembleInstr (i := .build 0 v.value)
  · exact lenField_of_assembleInstr (i := .encode 0 v.value)

section Status
variable {kmax : Nat} (r : Regs kmax) (i : Instr)

/-- The status of a command is the first error, or `OK` if no check fails (R133). -/
theorem apply_st : (r.apply i).st = (firstError kmax i r).getD .ok := by
  obtain ⟨e, he, -, hr⟩ | ⟨hnone, hok⟩ := apply_cases i r
  · rw [he, hr]; rfl
  · rw [hnone, hok]; rfl

/-- The reserved opcode is the only source of `IllegalOp` (R129). -/
theorem apply_st_eq_illegalOp_iff : (r.apply i).st = .illegalOp ↔ opcode i = 3 := by
  rw [apply_st]
  cases i with
  | build len arg =>
    simp only [firstError, opcode]
    split <;> simp
  | encode len arg | decode len arg =>
    simp only [firstError, opcode]
    split
    · simp
    · split <;> simp
  | reserved len arg => simp [firstError, opcode]

/-- A command with the reserved opcode keeps the layout (R52). -/
theorem apply_sameLayout_of_opcode_eq_three (h : opcode i = 3) : (r.apply i).SameLayout r := by
  obtain ⟨len, arg, rfl⟩ := (opcode_eq_three_iff i).mp h
  exact reserved_sameLayout r

end Status

/-- Settles O50: `exec` always completes, and what it completes with depends on the opcode of the decoded word. -/
theorem everyWordHasAnOutcome : Obligations.EveryWordHasAnOutcome := by
  unfold Obligations.EveryWordHasAnOutcome
  intro s w
  refine ⟨_, exec_eq _ s, ?_, fun hop => ?_⟩
  · rw [opSlice_ref_eq_iff, execute_regs]
    exact apply_st_eq_illegalOp_iff _ _
  · exact apply_sameLayout_of_opcode_eq_three _ _ ((opSlice_ref_eq_iff w 3#2).mp hop)

end Sys2Proof.Machine

/-! PROOFS. The Layout unit (spec/40_layout_build.md): what a successful BUILD leaves, and the codec under the empty
layout. -/

namespace Sys2Proof.Machine

section Build
variable {kmax : Nat} (r r' : Regs kmax)

/-- The two register writes of a successful BUILD overwrite all eight registers (R73). -/
theorem setLayout_respond_eq (n k T : Nat) (st : Status) (res syn cwc : Nat) :
    (r.setLayout n k T).respond st res syn cwc = (r'.setLayout n k T).respond st res syn cwc := rfl

/-- A successful BUILD reads its operand only (R71). -/
theorem build_eq_build {arg : Nat} (h : arg ≤ Config.nmax kmax) : r.build arg = r'.build arg := by
  rw [build_done r h, build_done r' h, setLayout_respond_eq r r']

/-- The width 0 needs no parity bit. -/
@[simp] theorem parityCount_zero : parityCount 0 = 0 := rfl

/-- Without parity bits the codeword is the empty word. -/
@[simp] theorem codewordLength_zero : codewordLength 0 = 0 := rfl

/-- BUILD 0 is accepted by a block of any size and installs the empty layout (R72). -/
theorem build_zero : r.build 0 = (r.setLayout 0 0 0).respond .ok 0 0 0 := by
  rw [build_done r (Nat.zero_le _), parityCount_zero, codewordLength_zero]

end Build

/-- Settles O32: the operand is all that a successful BUILD reads. -/
theorem layoutIsAFunctionOfTheWidth : Obligations.LayoutIsAFunctionOfTheWidth := by
  unfold Obligations.LayoutIsAFunctionOfTheWidth
  exact fun kmax r r' len len' arg h => build_eq_build r r' h

section Acceptance
variable {kmax : Nat} (r : Regs kmax)

/-- Once a layout is there, ENCODE accepts exactly the data units that fit it (R126). -/
theorem encode_st_eq_ok_iff {arg : Nat} (h : r.lv = true) : (r.encode arg).st = .ok ↔ arg < 2 ^ r.ln.toNat := by
  rcases Nat.lt_or_ge arg (2 ^ r.ln.toNat) with hd | hd
  · simp [encode_done r h hd, hd]
  · simp [encode_refused r h hd, hd]

/-- Once a layout is there, DECODE accepts exactly the lengths up to the codeword's (R125). -/
theorem decode_st_eq_ok_iff {len : Nat} (arg : Nat) (h : r.lv = true) :
    (r.decode len arg).st = .ok ↔ len ≤ r.lt.toNat := by
  rcases Nat.lt_or_ge r.lt.toNat len with hL | hL
  · simp [decode_refused r arg h hL, hL]
  · simp [decode_done r arg h hL, hL]

end Acceptance

section Empty
variable {kmax : Nat} (r : Regs kmax)

/-- There is nothing to scatter and no parity to store. -/
@[simp] theorem encodeUnit_zero_zero (d : Nat) : encodeUnit 0 0 d = 0 := rfl

/-- Without groups there is no syndrome bit. -/
@[simp] theorem syndrome_zero_groups (w : Nat) : syndrome 0 w = 0 := rfl

/-- A data unit of width 0 is 0, whatever is gathered. -/
@[simp] theorem resultUnit_zero_width (k c : Nat) : resultUnit k 0 c = 0 := Nat.mod_one _

/-- Under the empty layout ENCODE leaves 0 in `RES`, accepted or not (R72). -/
theorem encode_res_of_empty (d : Nat) (hlv : r.lv = true) (hln : r.ln.toNat = 0) (hlk : r.lk.toNat = 0) :
    (r.encode d).res = 0 := by
  rcases Nat.lt_or_ge d (2 ^ r.ln.toNat) with hd | hd
  · simp [encode_done r hlv hd, hln, hlk]
  · simp [encode_refused r hlv hd]

/-- Under the empty layout DECODE leaves 0 in `SYN` and `RES`, accepted or not (R72). -/
theorem decode_syn_res_of_empty (L arg : Nat) (hlv : r.lv = true) (hln : r.ln.toNat = 0) (hlk : r.lk.toNat = 0) :
    (r.decode L arg).syn = 0 ∧ (r.decode L arg).res = 0 := by
  rcases Nat.lt_or_ge r.lt.toNat L with hL | hL
  · simp [decode_refused r arg hlv hL]
  · simp [decode_done r arg hlv hL, hln, hlk]

end Empty

/-- Settles O34: BUILD 0 writes 0 to `LN`, `LK` and `LT`; a fitting data unit is then below 2^0, a fitting length at
most 0, and both commands give zeros. -/
theorem emptyLayout : Obligations.EmptyLayout := by
  unfold Obligations.EmptyLayout
  intro kmax r len _
  have hbuild : r.apply (.build len 0) = (r.setLayout 0 0 0).respond .ok 0 0 0 := build_zero r
  have hlv : (r.apply (.build len 0)).lv = true := by rw [hbuild, respond_lv, setLayout_lv]
  have hln : (r.apply (.build len 0)).ln.toNat = 0 := by simp [hbuild]
  have hlk : (r.apply (.build len 0)).lk.toNat = 0 := by simp [hbuild]
  have hlt : (r.apply (.build len 0)).lt.toNat = 0 := by simp [hbuild]
  have hst : (r.apply (.build len 0)).st = .ok := by rw [hbuild, respond_st]
  refine ⟨hlv, hln, hlk, hlt, hst, rfl, rfl, fun len' d => ⟨?_, ?_⟩, fun L arg => ⟨?_, ?_⟩⟩
  · exact (encode_st_eq_ok_iff _ hlv).trans (by rw [hln, Nat.pow_zero, Nat.lt_one_iff])
  · exact encode_res_of_empty _ d hlv hln hlk
  · exact (decode_st_eq_ok_iff _ arg hlv).trans (by rw [hlt, Nat.le_zero])
  · exact decode_syn_res_of_empty _ L arg hlv hln hlk

end Sys2Proof.Machine

/-! PROOFS. The exceptions (spec/60_exceptions.md): the status of each command case by case, which command and which
operand raise each error, the one error that is reported, and the response that goes with it. -/

namespace Sys2Proof.Machine

section StatusOfEachCommand
variable {kmax : Nat} (r : Regs kmax) (len arg : Nat)

/-- BUILD makes one check, on the width (R127). -/
theorem apply_build_st :
    (r.apply (.build len arg)).st = if Config.nmax kmax < arg then .widthUnsupported else .ok := by
  split
  case isTrue h => exact congrArg Regs.st (build_refused r h)
  case isFalse h => exact congrArg Regs.st (build_done r (Nat.not_lt.mp h))

/-- ENCODE asks for a layout, then checks the data unit (R126, R128, R133). -/
theorem apply_encode_st :
    (r.apply (.encode len arg)).st =
      if r.lv = false then .noLayout else if 2 ^ r.ln.toNat ≤ arg then .inputWidthMismatch else .ok := by
  split
  case isTrue h => exact congrArg Regs.st (encode_noLayout r arg h)
  case isFalse h =>
    have hlv : r.lv = true := Bool.eq_true_of_not_eq_false h
    split
    case isTrue hd => exact congrArg Regs.st (encode_refused r hlv hd)
    case isFalse hd => exact congrArg Regs.st (encode_done r hlv (Nat.not_le.mp hd))

/-- DECODE asks for a layout, then checks the length (R125, R128, R133). -/
theorem apply_decode_st :
    (r.apply (.decode len arg)).st =
      if r.lv = false then .noLayout else if r.lt.toNat < len then .inputTooLong else .ok := by
  split
  case isTrue h => exact congrArg Regs.st (decode_noLayout r len arg h)
  case isFalse h =>
    have hlv : r.lv = true := Bool.eq_true_of_not_eq_false h
    split
    case isTrue hL => exact congrArg Regs.st (decode_refused r arg hlv hL)
    case isFalse hL => exact congrArg Regs.st (decode_done r arg hlv (Nat.not_lt.mp hL))

/-- The reserved opcode makes no check (R129). -/
theorem apply_reserved_st : (r.apply (.reserved len arg)).st = .illegalOp := raise_st r _

end StatusOfEachCommand

section SourceOfEachError
variable {kmax : Nat} (r : Regs kmax) (i : Instr)

/-- Only BUILD raises `WidthUnsupported`, for a width above `NMAX` (R127). -/
theorem apply_st_eq_widthUnsupported_iff :
    (r.apply i).st = .widthUnsupported ↔ ∃ len arg, i = .build len arg ∧ Config.nmax kmax < arg := by
  cases i with
  | build len arg => simp [apply_build_st]
  | encode len arg => simp [apply_encode_st, ite_eq_iff]
  | decode len arg => simp [apply_decode_st, ite_eq_iff]
  | reserved len arg => simp [apply_reserved_st]

/-- Only ENCODE raises `InputWidthMismatch`, for a data unit that does not fit the layout (R126). -/
theorem apply_st_eq_inputWidthMismatch_iff :
    (r.apply i).st = .inputWidthMismatch ↔
      ∃ len arg, i = .encode len arg ∧ r.lv = true ∧ 2 ^ r.ln.toNat ≤ arg := by
  cases i with
  | build len arg => simp [apply_build_st, ite_eq_iff]
  | encode len arg => simp [apply_encode_st, ite_eq_iff]
  | decode len arg => simp [apply_decode_st, ite_eq_iff]
  | reserved len arg => simp [apply_reserved_st]

/-- Only DECODE raises `InputTooLong`, for a length above the layout's (R125). -/
theorem apply_st_eq_inputTooLong_iff :
    (r.apply i).st = .inputTooLong ↔ ∃ len arg, i = .decode len arg ∧ r.lv = true ∧ r.lt.toNat < len := by
  cases i with
  | build len arg => simp [apply_build_st, ite_eq_iff]
  | encode len arg => simp [apply_encode_st, ite_eq_iff]
  | decode len arg => simp [apply_decode_st, ite_eq_iff]
  | reserved len arg => simp [apply_reserved_st]

/-- Only ENCODE and DECODE raise `NoLayout`, as long as there is no layout (R128). -/
theorem apply_st_eq_noLayout_iff :
    (r.apply i).st = .noLayout ↔ (∃ len arg, i = .encode len arg ∨ i = .decode len arg) ∧ r.lv = false := by
  cases i with
  | build len arg => simp [apply_build_st, ite_eq_iff]
  | encode len arg => simp [apply_encode_st, ite_eq_iff]
  | decode len arg => simp [apply_decode_st, ite_eq_iff]
  | reserved len arg => simp [apply_reserved_st]

end SourceOfEachError

section ErrorResponses
variable {kmax : Nat} {r : Regs kmax} {i : Instr}

/-- An error status is the first check that failed (R133). -/
theorem firstError_of_st_ne_ok (h : (r.apply i).st ≠ .ok) : firstError kmax i r = some (r.apply i).st := by
  obtain ⟨e, he, -, hr⟩ | ⟨-, hok⟩ := apply_cases i r
  · rw [he, hr, raise_st]
  · exact absurd hok h

/-- An error comes with no result (R131). -/
theorem apply_results_of_st_ne_ok (h : (r.apply i).st ≠ .ok) :
    (r.apply i).res = 0 ∧ (r.apply i).syn = 0 ∧ (r.apply i).cwc = 0 := by
  rw [apply_eq_raise_of_st_ne_ok h]
  exact ⟨raise_res r _, raise_syn r _, raise_cwc r _⟩

/-- An error leaves the layout (R131). -/
theorem apply_sameLayout_of_st_ne_ok (h : (r.apply i).st ≠ .ok) : (r.apply i).SameLayout r := by
  rw [apply_eq_raise_of_st_ne_ok h]
  exact raise_sameLayout r _

end ErrorResponses

/-- `K(n)` is at most `k` exactly when `k` parity bits are enough: beyond the least exponent the inequality of R60 stays
true. -/
theorem parityCount_le_iff (n k : Nat) : parityCount n ≤ k ↔ n + k + 1 ≤ 2 ^ k := by
  obtain ⟨henough, hleast⟩ := parityCount_least n
  constructor
  · intro h
    induction k, h using Nat.le_induction with
    | base => exact henough
    | succ k _ ih =>
      rw [Nat.pow_succ]
      omega
  · intro h
    by_contra hlt
    exact absurd (hleast k (Nat.not_le.mp hlt)) (Nat.not_lt.mpr h)

/-- The widths above `NMAX` are those that need more than `KMAX` parity bits (R127). -/
theorem nmax_lt_iff (kmax n : Nat) : Config.nmax kmax < n ↔ kmax < parityCount n := by
  have hpow : kmax < 2 ^ kmax := Nat.lt_two_pow_self
  rw [← Nat.not_le (a := parityCount n), parityCount_le_iff]
  simp only [Config.nmax, Config.tmax]
  omega

/-- Settles O33: BUILD makes this check alone and no other command makes it; `NMAX` is the last width with `K` up to
`KMAX`. -/
theorem widthUnsupportedExactly : Obligations.WidthUnsupportedExactly := by
  unfold Obligations.WidthUnsupportedExactly
  exact ⟨rfl, fun kmax r i _ => apply_st_eq_widthUnsupported_iff r i, fun kmax n _ => nmax_lt_iff kmax n⟩

/-- Settles O42: the comparison and the shift are the same test, and a refused ENCODE writes zeros. -/
theorem inputWidthMismatchExactly : Obligations.InputWidthMismatchExactly := by
  unfold Obligations.InputWidthMismatchExactly
  refine ⟨rfl, fun kmax r i => ⟨apply_st_eq_inputWidthMismatch_iff r i, ?_, fun h => ?_⟩⟩
  · have hshift : ∀ arg, arg >>> r.ln.toNat ≠ 0 ↔ 2 ^ r.ln.toNat ≤ arg := fun arg =>
      bne_iff_ne.symm.trans (inputWidthMismatch_iff r arg)
    simp only [hshift]
    exact apply_st_eq_inputWidthMismatch_iff r i
  · obtain ⟨hres, -, -⟩ := apply_results_of_st_ne_ok (r := r) (i := i) (by rw [h]; decide)
    exact hres

/-- Settles O45: DECODE compares the length alone, and a refused DECODE writes zeros. -/
theorem inputTooLongExactly : Obligations.InputTooLongExactly := by
  unfold Obligations.InputTooLongExactly
  refine ⟨rfl, fun kmax r i => ⟨apply_st_eq_inputTooLong_iff r i, fun len arg arg' => ?_, fun h => ?_⟩⟩
  · rw [apply_decode_st, apply_decode_st]
  · exact apply_results_of_st_ne_ok (by rw [h]; decide)

/-- Settles O51: the reserved opcode is the only source of the error, and the op slice is the opcode. -/
theorem illegalOpExactly : Obligations.IllegalOpExactly := by
  unfold Obligations.IllegalOpExactly
  refine ⟨rfl, fun kmax r w => ?_⟩
  rw [opSlice_eq_iff, ← opcode_decodeWord]
  exact apply_st_eq_illegalOp_iff r _

section LayoutValid
variable {kmax : Nat} (r : Regs kmax)

/-- A command sets `LV` exactly if it is a BUILD of a width up to `NMAX`, and none clears it (R12, R73). -/
theorem apply_lv_iff (i : Instr) :
    (r.apply i).lv = true ↔ r.lv = true ∨ ∃ len arg, i = .build len arg ∧ arg ≤ Config.nmax kmax := by
  cases i with
  | build len arg =>
    rcases Nat.lt_or_ge (Config.nmax kmax) arg with h | h
    · simp [Regs.apply, build_refused r h, Nat.not_le.mpr h]
    · simp [Regs.apply, build_done r h, h]
  -- The other three keep the layout: `encode_sameLayout`, `decode_sameLayout`, `reserved_sameLayout`.
  | encode len arg | decode len arg | reserved len arg => simp [Regs.apply]

/-- After a list of commands there is a layout exactly if there was one before or some BUILD in the list succeeded. -/
theorem runWords_lv_iff (ws : List (CmdWord kmax)) :
    (r.runWords ws).lv = true ↔
      r.lv = true ∨ ∃ w ∈ ws, ∃ len arg, decodeWord kmax w = .build len arg ∧ arg ≤ Config.nmax kmax := by
  induction ws generalizing r with
  | nil => simp [Regs.runWords]
  | cons w ws ih =>
    have hrun : r.runWords (w :: ws) = (r.apply (decodeWord kmax w)).runWords ws := rfl
    rw [hrun, ih, apply_lv_iff, List.exists_mem_cons_iff, or_assoc]

end LayoutValid

/-- Settles O53: ENCODE and DECODE make this check first; reset clears `LV`, and only a BUILD that succeeds sets it. -/
theorem noLayoutExactly : Obligations.NoLayoutExactly := by
  unfold Obligations.NoLayoutExactly
  refine ⟨rfl, fun kmax r i => apply_st_eq_noLayout_iff r i, fun kmax ws => ?_⟩
  rw [runWords_lv_iff, reset_lv]
  exact or_iff_right Bool.false_ne_true

/-- Settles O54: the status of each command, at each of its checks. -/
theorem firstFailingCheckIsReported : Obligations.FirstFailingCheckIsReported := by
  unfold Obligations.FirstFailingCheckIsReported
  refine ⟨fun kmax => apply_st, fun kmax => apply_reserved_st, fun kmax r len arg h => ⟨?_, ?_⟩,
    fun kmax r len arg h => ?_, fun kmax r len arg hlv h => ?_, fun kmax r len arg hlv h => ?_⟩
  · rw [apply_encode_st, if_pos h]
  · rw [apply_decode_st, if_pos h]
  · rw [apply_build_st, if_pos h]
  · rw [apply_encode_st, if_neg (by simp [hlv]), if_pos h]
  · rw [apply_decode_st, if_neg (by simp [hlv]), if_pos h]

/-- Settles O55: the registers are those of `raise`, and completion does the handshake. -/
theorem errorResponse : Obligations.ErrorResponse := by
  unfold Obligations.ErrorResponse
  intro i s t h hst
  obtain rfl := exec_next h
  obtain ⟨hres, hsyn, hcwc⟩ := apply_results_of_st_ne_ok hst
  exact ⟨firstError_of_st_ne_ok hst, outputs_st _, hres, hsyn, hcwc, apply_sameLayout_of_st_ne_ok hst,
    execute_rspValid _ i, cmdReady_iff.mpr (execute_inFlight _ i)⟩

end Sys2Proof.Machine

/-! PROOFS. The command codec (spec/30_encoding.md): the three fields of a packed word, so that decoding and encoding
are inverse to each other; the numbers that are command words; the assembler's lines; the external representation. -/

namespace Sys2Proof

/-- A command is its opcode and its two fields. -/
theorem instr_eq_of_fields {i i' : Instr} (hop : opcode i = opcode i') (hlen : lenOf i = lenOf i')
    (harg : argOf i = argOf i') : i = i' := by
  cases i <;> cases i' <;> simp_all [opcode, lenOf, argOf]

section Fields
variable {kmax : Nat}

/-- Every case of the decoder reads the same two operand fields (R46). -/
theorem operands_decodeWord (w : CmdWord kmax) :
    lenOf (decodeWord kmax w) = lenField kmax w ∧ argOf (decodeWord kmax w) = argField kmax w := by
  unfold decodeWord
  split <;> exact ⟨rfl, rfl⟩

/-- A command word is the weighted sum of its three fields (R46). -/
theorem fields_sum (w : CmdWord kmax) :
    (opField kmax w * 2 ^ Config.lw kmax + lenField kmax w) * 2 ^ Config.tmax kmax + argField kmax w = w.toNat := by
  rw [opField, lenField, argField, Nat.shiftRight_add, Nat.shiftRight_eq_div_pow _ (Config.lw kmax),
    Nat.div_add_mod', Nat.shiftRight_eq_div_pow, Nat.div_add_mod']

/-- No field of a command word is wider than the port has room for (R46). -/
theorem wellFormed_decodeWord (w : CmdWord kmax) : wellFormed kmax (decodeWord kmax w) = true := by
  obtain ⟨hlen, harg⟩ := operands_decodeWord w
  rw [wellFormed_iff, hlen, harg]
  exact ⟨lenField_lt kmax w, argField_lt kmax w⟩

/-- Packing the decoded command gives the word back (R46, R52). -/
theorem encodeWord_decodeWord (w : CmdWord kmax) : encodeWord kmax (decodeWord kmax w) = w := by
  obtain ⟨hlen, harg⟩ := operands_decodeWord w
  have hfit := wellFormed_decodeWord w
  refine BitVec.eq_of_toNat_eq ?_
  rw [toNat_encodeWord hfit, encodeNumber_eq hfit, opcode_decodeWord, hlen, harg, fields_sum]

variable {i : Instr}

/-- Field `arg` of the packed word of a well-formed command (R46). -/
theorem argField_encodeWord (h : wellFormed kmax i = true) : argField kmax (encodeWord kmax i) = argOf i := by
  obtain ⟨-, harg⟩ := (wellFormed_iff kmax i).mp h
  rw [argField, toNat_encodeWord h, encodeNumber_eq h, Nat.mul_add_mod', Nat.mod_eq_of_lt harg]

/-- Field `op` of the packed word of a well-formed command (R46). -/
theorem opField_encodeWord (h : wellFormed kmax i = true) : opField kmax (encodeWord kmax i) = opcode i := by
  obtain ⟨hlen, harg⟩ := (wellFormed_iff kmax i).mp h
  rw [opField, toNat_encodeWord h, encodeNumber_eq h, Nat.shiftRight_add, Nat.shiftRight_eq_div_pow,
    Nat.shiftRight_eq_div_pow, Nat.add_comm, Nat.add_mul_div_right _ _ (Nat.two_pow_pos _), Nat.div_eq_of_lt harg,
    Nat.zero_add, Nat.add_comm, Nat.add_mul_div_right _ _ (Nat.two_pow_pos _), Nat.div_eq_of_lt hlen, Nat.zero_add]

/-- Decoding the packed word of a well-formed command gives the command back (R46, R47). -/
theorem decodeWord_encodeWord (h : wellFormed kmax i = true) : decodeWord kmax (encodeWord kmax i) = i := by
  obtain ⟨hlen, harg⟩ := operands_decodeWord (encodeWord kmax i)
  refine instr_eq_of_fields ?_ ?_ ?_
  · rw [opcode_decodeWord, opField_encodeWord h]
  · rw [hlen, lenField_encodeWord h]
  · rw [harg, argField_encodeWord h]

end Fields

/-- Settles O1: the three fields of the packed word are those of the command. -/
theorem decodeOfEncode : Obligations.DecodeOfEncode := by
  unfold Obligations.DecodeOfEncode
  exact fun kmax i h => decodeWord_encodeWord h

/-- Settles O2: the fields of a word fit, and the word is their weighted sum. -/
theorem encodeOfDecode : Obligations.EncodeOfDecode := by
  unfold Obligations.EncodeOfDecode
  exact fun kmax w => ⟨wellFormed_decodeWord w, encodeWord_decodeWord w⟩

/-- Settles O5: the two branches of the decoder of numbers. -/
theorem numberDecodesIffItFits : Obligations.NumberDecodesIffItFits := by
  unfold Obligations.NumberDecodesIffItFits
  exact fun kmax v => ⟨fun h => if_pos h, fun h => if_neg (Nat.not_lt.mpr h)⟩

/-- Settles O4: the decoder evaluated on eight closed words. -/
theorem sampleWordsDecode : Obligations.SampleWordsDecode := by
  unfold Obligations.SampleWordsDecode
  decide

end Sys2Proof

namespace Sys2Proof.Machine

section Assembler
variable {kmax : Nat} {i : Instr}

/-- A command that fits is assembled to the word that decodes to it (R55). -/
theorem map_decodeWord_assembleInstr (hlen : lenOf i < 2 ^ Config.lw kmax) (harg : argOf i < 2 ^ Config.tmax kmax) :
    (assembleInstr kmax i).map (decodeWord kmax) = .ok i := by
  have hfit : wellFormed kmax i = true := (wellFormed_iff kmax i).mpr ⟨hlen, harg⟩
  rw [assembleInstr_eq_ok_iff.mpr ⟨hfit, rfl⟩, Except.map, decodeWord_encodeWord hfit]

/-- A command one of whose operands does not fit is refused (R55). -/
theorem assembleInstr_refused (h : 2 ^ Config.lw kmax ≤ lenOf i ∨ 2 ^ Config.tmax kmax ≤ argOf i) :
    assembleInstr kmax i = .error .operandTooWide := by
  refine if_neg fun hfit => ?_
  obtain ⟨hlen, harg⟩ := (wellFormed_iff kmax i).mp hfit
  omega

/-- The length of a full-length layout fits the field `len`. -/
theorem tmax_lt_two_pow_lw (kmax : Nat) : Config.tmax kmax < 2 ^ Config.lw kmax := by
  have hpos := Nat.two_pow_pos kmax
  simp only [Config.tmax, Config.lw, Nat.pow_succ]
  omega

end Assembler

/-- Settles O7: each line but `.word` is a command, which is packed if it fits and refused otherwise. -/
theorem assemblerGivesTheCommand : Obligations.AssemblerGivesTheCommand := by
  unfold Obligations.AssemblerGivesTheCommand
  intro kmax full v L
  have hzero : 0 < 2 ^ Config.lw kmax := Nat.two_pow_pos _
  refine ⟨fun hv => ⟨?_, ?_, fun hL => ?_, fun hL => ?_, ?_⟩, fun hv => ⟨?_, ?_, ?_, ?_⟩, rfl,
    fun hv => ?_, fun hv => ?_⟩
  · exact map_decodeWord_assembleInstr (i := .build 0 v.value) hzero hv
  · exact map_decodeWord_assembleInstr (i := .encode 0 v.value) hzero hv
  · exact map_decodeWord_assembleInstr (i := .decode L.value v.value) hL hv
  · exact assembleInstr_refused (i := .decode L.value v.value) (.inl hL)
  · exact map_decodeWord_assembleInstr (i := .decode (Config.tmax kmax) v.value) (tmax_lt_two_pow_lw kmax) hv
  · exact assembleInstr_refused (i := .build 0 v.value) (.inr hv)
  · exact assembleInstr_refused (i := .encode 0 v.value) (.inr hv)
  · exact assembleInstr_refused (i := .decode L.value v.value) (.inr hv)
  · exact assembleInstr_refused (i := .decode (Config.tmax kmax) v.value) (.inr hv)
  · rw [assembleLine, if_pos hv, Except.map, BitVec.toNat_ofNat, Nat.mod_eq_of_lt hv]
  · exact if_neg (Nat.not_lt.mpr hv)

/-- One more position puts its digit in front (R34). -/
theorem externalBits_succ (T c : Nat) : externalBits (T + 1) c = c.testBit T :: externalBits T c := by
  simp [externalBits, List.range_succ]

/-- The running value of the read digits can be taken out. -/
theorem foldl_digits_start (digits : List Bool) (v : Nat) :
    digits.foldl (fun v d => 2 * v + d.toNat) v = v * 2 ^ digits.length + ofExternalBits digits := by
  induction digits generalizing v with
  | nil => simp [ofExternalBits]
  | cons d ds ih =>
    rw [ofExternalBits, List.foldl_cons, List.foldl_cons, ih, ih (2 * 0 + d.toNat), List.length_cons, Nat.pow_succ]
    ring

@[simp] theorem length_externalBits (T c : Nat) : (externalBits T c).length = T := by simp [externalBits]

/-- Reading the `T` digits gives the low `T` bits of the word (R34). -/
theorem ofExternalBits_externalBits (T c : Nat) : ofExternalBits (externalBits T c) = c % 2 ^ T := by
  induction T with
  | zero => rw [Nat.pow_zero, Nat.mod_one]; rfl
  | succ T ih =>
    rw [externalBits_succ, ofExternalBits, List.foldl_cons, foldl_digits_start, ih, length_externalBits,
      Nat.mul_zero, Nat.zero_add, Nat.mod_pow_succ, Nat.toNat_testBit, Nat.mul_comm, Nat.add_comm]

/-- Settles O8: the digits are the bits from the top position down, and reading them is the binary expansion. -/
theorem externalRepresentation : Obligations.ExternalRepresentation := by
  unfold Obligations.ExternalRepresentation
  refine fun T c => ⟨length_externalBits T c, fun a ha => ?_, fun hc => ?_⟩
  · simp [externalBits, ha, pos, Nat.sub_right_comm]
  · rw [ofExternalBits_externalBits, Nat.mod_eq_of_lt hc]

end Sys2Proof.Machine

/-! PROOFS. The clock edge (spec/20_memory.md section 4, spec/70_reset_and_hazards.md): what an edge does in each of its
cases, how long a command stays in flight, and how a schedule of commands runs. -/

namespace Sys2Proof.Machine

section Edges
variable {kmax : Nat} {b : Block kmax}

/-- Reset wins (R150, R151). -/
theorem clock_of_rst (h : b.edge.rst = true) : b.clock = ⟨Regs.reset kmax, none, false, b.edges.tail⟩ := by
  simp only [Block.clock, Block.event, h, if_true]
  rfl

/-- A command in flight completes at an edge that finishes it (R38, R39). -/
theorem clock_of_finish {w : CmdWord kmax} (hr : b.edge.rst = false) (hw : b.inFlight = some w)
    (hf : b.edge.finish = true) : b.clock = ⟨b.regs.transact w, none, true, b.edges.tail⟩ := by
  simp only [Block.clock, Block.event, hr, hw, hf, if_true, Bool.false_eq_true, if_false]
  rfl

/-- A command in flight stays so at any other edge (R38). -/
theorem clock_of_busy {w : CmdWord kmax} (hr : b.edge.rst = false) (hw : b.inFlight = some w)
    (hf : b.edge.finish = false) : b.clock = ⟨b.regs, some w, false, b.edges.tail⟩ := by
  simp only [Block.clock, Block.event, hr, hw, hf, Bool.false_eq_true, if_false, Block.hold, Block.advance]

/-- A ready block accepts the word offered (R37). -/
theorem clock_of_offer (hr : b.edge.rst = false) (hn : b.inFlight = none) (hv : b.edge.cmdValid = true) :
    b.clock = ⟨b.regs, some b.edge.cmd, false, b.edges.tail⟩ := by
  simp only [Block.clock, Block.event, hr, hn, hv, if_true, Bool.false_eq_true, if_false]
  rfl

/-- A ready block that is offered nothing holds (R38, R39). -/
theorem clock_of_idle (hr : b.edge.rst = false) (hn : b.inFlight = none) (hv : b.edge.cmdValid = false) :
    b.clock = ⟨b.regs, none, false, b.edges.tail⟩ := by
  simp only [Block.clock, Block.event, hr, hn, hv, Bool.false_eq_true, if_false, Block.hold, Block.advance]

end Edges

/-- A step of the machine, from what the clock of its block does. -/
theorem step_of_clock {s : State} {c : Block Config.refKmax} (h : s.toBlock.clock = c) : step s = .next ⟨c⟩ := by
  rw [step_eq, h]

/-- Settles O18: the five cases of an edge, one lemma each. -/
theorem clockOfEveryBlock : Obligations.ClockOfEveryBlock := by
  unfold Obligations.ClockOfEveryBlock
  exact fun kmax b => ⟨clock_of_rst, fun hr => ⟨fun w => clock_of_finish hr, fun w => clock_of_busy hr,
    clock_of_offer hr, clock_of_idle hr⟩⟩

/-- Settles O14: a step is an edge of the block, and an edge always has a next state. -/
theorem noStateIsStuck : Obligations.NoStateIsStuck := by
  unfold Obligations.NoStateIsStuck
  exact fun s => ⟨_, step_eq s⟩

/-- Settles O10: the reset case of an edge. -/
theorem resetWinsAtEveryEdge : Obligations.ResetWinsAtEveryEdge := by
  unfold Obligations.ResetWinsAtEveryEdge
  exact ⟨fun s h => step_of_clock (clock_of_rst h), fun kmax b h => clock_of_rst h⟩

/-- Settles O12: the busy, the idle and the acceptance case of an edge. -/
theorem registersHoldBetweenEvents : Obligations.RegistersHoldBetweenEvents := by
  unfold Obligations.RegistersHoldBetweenEvents
  refine fun s hr => ⟨fun w hw hf => ?_, fun hn hv => ?_, fun hn hv => ?_⟩
  · rw [step_of_clock (clock_of_busy hr hw hf), hw]
  · rw [step_of_clock (clock_of_idle hr hn hv), hn]
  · exact step_of_clock (clock_of_offer hr hn hv)

/-- A completion edge runs the decoded command on the state with that edge taken. -/
theorem step_of_finish {s : State} {w : CmdWord Config.refKmax} (hw : s.inFlight = some w) (hr : s.edge.rst = false)
    (hf : s.edge.finish = true) : step s = exec (decodeWord Config.refKmax w) { s with edges := s.edges.tail } := by
  rw [step_of_clock (clock_of_finish hr hw hf), exec_eq]
  rfl

/-- A number that the host's view of the decoder accepts is a command word. -/
theorem decodeWord_of_decodeTableWord {nbits v : Nat} {i : Instr} (h : decodeTableWord nbits v = some i) :
    decodeWord Config.refKmax (BitVec.ofNat _ (v % 2 ^ nbits)) = i := by
  unfold decodeTableWord decodeNumber at h
  by_cases hfit : v % 2 ^ nbits < 2 ^ Config.cmdw Config.refKmax
  · simpa only [if_pos hfit, Option.some.injEq] using h
  · simp only [if_neg hfit, reduceCtorEq] at h

/-- Settles O9: the completion case of an edge; a placed word completes at the idle edge put before the others. -/
theorem stepRunsTheDecodedCommand : Obligations.StepRunsTheDecodedCommand := by
  unfold Obligations.StepRunsTheDecodedCommand
  refine ⟨fun s w hw hr hf => step_of_finish hw hr hf, fun s nbits v i h => ?_⟩
  rw [step_of_finish (withFetchWord_inFlight s nbits v) (by simp) (by simp), decodeWord_of_decodeTableWord h]
  rfl

/-- Settles O13: of all that an edge can do only a completion pulses `rsp_valid`, and it ends the command in flight. -/
theorem responsePulseMarksCompletion : Obligations.ResponsePulseMarksCompletion := by
  unfold Obligations.ResponsePulseMarksCompletion
  intro s t h
  obtain ⟨hr, ht⟩ | ⟨hr, hf, w, hw, ht⟩ | ⟨-, hf, w, -, ht⟩ | ⟨-, -, hn, ht⟩ | ⟨-, -, hn, ht⟩ := step_cases h
  case inl => simp [ht, hr]
  case inr.inl => simp [ht, hr, hf, hw]
  case inr.inr.inl => simp [ht, hf]
  case inr.inr.inr.inl | inr.inr.inr.inr => simp [ht, hn]

/-- Settles O19: each port is one field; the code of each status is its number. -/
theorem outputPortsShowRegisters : Obligations.OutputPortsShowRegisters := by
  unfold Obligations.OutputPortsShowRegisters
  refine fun kmax b => ⟨cmdReady_iff, rfl, ?_, rfl, rfl, rfl, ?_, rfl, rfl, rfl⟩
  · rw [outputs_st]
    cases b.regs.st <;> rfl
  · have hlv : b.outputs.lv = BitVec.ofBool b.regs.lv := rfl
    rw [hlv]
    cases b.regs.lv <;> decide

/-- `n` steps of the machine are `n` edges of the block of the reference size. -/
theorem run_core_eq_iff (n : Nat) (s t : State) :
    Host.Core.run core n s = .next t ↔ Host.Core.run (machineOf Config.refKmax) n s.toBlock = .next t.toBlock := by
  induction n generalizing s with
  | zero =>
    cases s
    cases t
    exact ⟨fun h => by cases h; rfl, fun h => by cases h; rfl⟩
  | succ n ih => rw [run_of_step (step_eq s), run_of_clock, ih]

/-- Settles O17: induction on the number of steps. -/
theorem machineRunsAsTheReferenceBlock : Obligations.MachineRunsAsTheReferenceBlock := by
  unfold Obligations.MachineRunsAsTheReferenceBlock
  exact run_core_eq_iff

section Latency
variable {kmax : Nat}

/-- The edge at which a command completes, as a run of length 1 (R38, R39). -/
theorem run_one_of_finish {b : Block kmax} {w : CmdWord kmax} (hr : b.edge.rst = false) (hw : b.inFlight = some w)
    (hf : b.edge.finish = true) :
    Host.Core.run (machineOf kmax) 1 b = .next (⟨b.regs.transact w, none, true, b.edges.tail⟩ : Block kmax) := by
  rw [run_of_clock, clock_of_finish hr hw hf]
  rfl

/-- What holds of a block after `m` edges at which its command stays in flight. -/
abbrev Block.StillBusy (b : Block kmax) (w : CmdWord kmax) (m : Nat) : Prop :=
  ∃ d : Block kmax, Host.Core.run (machineOf kmax) m b = .next d ∧
    d.regs = b.regs ∧ d.inFlight = some w ∧ d.rspValid = false

/-- Without a reset a command in flight completes at the first edge that finishes it, or at the first edge after the
host's last; until then nothing changes (R38, R162). -/
theorem completes_of_no_reset (es : List (Edge kmax)) (b : Block kmax) (w : CmdWord kmax) (hes : b.edges = es)
    (hw : b.inFlight = some w) (hr : ∀ e ∈ es, e.rst = false) :
    ∃ n c, n ≤ es.length ∧ Host.Core.run (machineOf kmax) (n + 1) b = .next c ∧
      c.regs = b.regs.transact w ∧ c.rspValid = true ∧ c.inFlight = none ∧
      ∀ m, 1 ≤ m → m ≤ n → b.StillBusy w m := by
  induction es generalizing b with
  | nil =>
    have hrun := run_one_of_finish (b := b) (by rw [edge_nil b hes]; rfl) hw (by rw [edge_nil b hes]; rfl)
    exact ⟨0, _, Nat.le_refl _, hrun, rfl, rfl, rfl, by omega⟩
  | cons e es ih =>
    have hr0 : b.edge.rst = false := (edge_cons b hes).symm ▸ hr e List.mem_cons_self
    cases hf : b.edge.finish with
    | true => exact ⟨0, _, Nat.zero_le _, run_one_of_finish hr0 hw hf, rfl, rfl, rfl, by omega⟩
    | false =>
      have hclock := clock_of_busy hr0 hw hf
      obtain ⟨n, c, hn, hrun, hregs, hrsp, hfree, hbusy⟩ := ih ⟨b.regs, some w, false, b.edges.tail⟩
        (congrArg List.tail hes) rfl fun e' h' => hr e' (List.mem_cons_of_mem _ h')
      refine ⟨n + 1, c, Nat.succ_le_succ hn, by rw [run_of_clock, hclock, hrun], hregs, hrsp, hfree, fun m hm hmn => ?_⟩
      obtain ⟨m, rfl⟩ := Nat.exists_eq_add_of_le' hm
      rw [Block.StillBusy, run_of_clock, hclock]
      rcases Nat.eq_zero_or_pos m with rfl | hm'
      · exact ⟨_, rfl, rfl, rfl, rfl⟩
      · exact hbusy m hm' (Nat.le_of_succ_le_succ hmn)

end Latency

/-- Settles O15: the statement for every block, and the machine runs as the block of the reference size. -/
theorem acceptedCommandCompletes : Obligations.AcceptedCommandCompletes := by
  unfold Obligations.AcceptedCommandCompletes
  refine ⟨fun s w hw hr => ?_, fun kmax b w hw hr => completes_of_no_reset b.edges b w rfl hw hr⟩
  obtain ⟨n, c, hn, hrun, hregs, hrsp, hfree, hbusy⟩ := completes_of_no_reset s.edges s.toBlock w rfl hw hr
  refine ⟨n, ⟨c⟩, hn, (run_core_eq_iff _ s ⟨c⟩).mpr hrun, hregs, hrsp, hfree, fun m hm hmn => ?_⟩
  obtain ⟨d, hd, hd'⟩ := hbusy m hm hmn
  exact ⟨⟨d⟩, (run_core_eq_iff m s ⟨d⟩).mpr hd, hd'⟩

section Schedules
variable {kmax : Nat}

/-- At edges without a reset, an offer or a completion the block takes the edges and keeps everything else but
`rsp_valid` (R38, R39). -/
theorem run_of_holds (es rest : List (Edge kmax)) (b : Block kmax) (hes : b.edges = es ++ rest)
    (hhold : ∀ d : Block kmax, d.edge ∈ es → d.inFlight = b.inFlight → d.event = .hold) :
    ∃ c : Block kmax, Host.Core.run (machineOf kmax) es.length b = .next c ∧
      c.regs = b.regs ∧ c.inFlight = b.inFlight ∧ c.edges = rest := by
  induction es generalizing b with
  | nil => exact ⟨b, rfl, rfl, rfl, hes⟩
  | cons e es ih =>
    have hevent : b.event = .hold := hhold b (by rw [edge_cons b hes]; exact List.mem_cons_self) rfl
    have hclock : b.clock = b.advance.hold := by simp only [Block.clock, hevent]
    obtain ⟨c, hrun, hregs, hfly, hedges⟩ := ih b.advance.hold (congrArg List.tail hes)
      fun d hd hf => hhold d (List.mem_cons_of_mem _ hd) hf
    exact ⟨c, by rw [List.length_cons, run_of_clock, hclock, hrun], hregs, hfly, hedges⟩

/-- One command passes over the pins: nothing is offered, the word is accepted, the block is busy with it, and it
completes (R37 to R39, R41). -/
theorem run_of_job (j : Job kmax) (hj : j.Proper) (b : Block kmax) (rest : List (Edge kmax)) (hn : b.inFlight = none)
    (hes : b.edges = j.edges ++ rest) :
    Host.Core.run (machineOf kmax) j.edges.length b =
      .next (⟨b.regs.transact j.word, none, true, rest⟩ : Block kmax) := by
  obtain ⟨hidle, ⟨horst, hovalid⟩, hbusy, hlrst, hlfin⟩ := hj
  have hlen : j.edges.length = j.idle.length + (j.busy.length + 1 + 1) := by simp [Job.edges]
  have hes' : b.edges = j.idle ++ (j.offer :: (j.busy ++ j.last :: rest)) := by simp [hes, Job.edges]
  obtain ⟨c, hrun, hregs, hfly, hedges⟩ := run_of_holds _ _ b hes' fun d hd hf => by
    obtain ⟨hr, hv⟩ := hidle _ hd
    simp [Block.event, hr, hf, hn, hv]
  have hoffer : c.clock = ⟨b.regs, some j.word, false, j.busy ++ j.last :: rest⟩ := by
    have he := edge_cons c hedges
    rw [clock_of_offer (he ▸ horst) (hfly.trans hn) (he ▸ hovalid), he, hregs, hedges]
    rfl
  obtain ⟨d, hrun', hregs', hfly', hedges'⟩ :=
    run_of_holds j.busy (j.last :: rest) ⟨b.regs, some j.word, false, j.busy ++ j.last :: rest⟩ rfl fun d hd hf => by
      obtain ⟨hr, hf'⟩ := hbusy _ hd
      simp [Block.event, hr, hf, hf']
  have he := edge_cons d hedges'
  rw [hlen, run_add _ hrun, run_of_clock, hoffer, run_add _ hrun',
    run_one_of_finish (he ▸ hlrst) hfly' (he ▸ hlfin), hregs', hedges']
  rfl

/-- A schedule of commands executes their words one after the other (R40, R156). -/
theorem run_of_schedule (jobs : List (Job kmax)) (b : Block kmax) (rest : List (Edge kmax)) (hn : b.inFlight = none)
    (hjobs : ∀ j ∈ jobs, j.Proper) (hes : b.edges = schedule jobs ++ rest) :
    ∃ c : Block kmax, Host.Core.run (machineOf kmax) (schedule jobs).length b = .next c ∧
      c.regs = b.regs.runWords (jobs.map Job.word) ∧ c.inFlight = none ∧ c.edges = rest ∧
      (jobs ≠ [] ∨ b.rspValid = true → c.rspValid = true) := by
  induction jobs generalizing b with
  | nil => exact ⟨b, rfl, rfl, hn, hes, fun h => h.resolve_left (not_not_intro rfl)⟩
  | cons j jobs ih =>
    have hsched : schedule (j :: jobs) = j.edges ++ schedule jobs := rfl
    have hjob := run_of_job j (hjobs j List.mem_cons_self) b (schedule jobs ++ rest) hn
      (by rw [hes, hsched, List.append_assoc])
    obtain ⟨c, hrun, hregs, hfly, hedges, hrsp⟩ := ih ⟨b.regs.transact j.word, none, true, schedule jobs ++ rest⟩ rfl
      (fun j' h' => hjobs j' (List.mem_cons_of_mem _ h')) rfl
    exact ⟨c, by rw [hsched, List.length_append, run_add _ hjob, hrun], hregs, hfly, hedges, fun _ => hrsp (.inr rfl)⟩

end Schedules

/-- Settles O16: the statement for every block, and the machine runs as the block of the reference size. -/
theorem clockedBlockRefinesSerialExecution : Obligations.ClockedBlockRefinesSerialExecution := by
  unfold Obligations.ClockedBlockRefinesSerialExecution
  refine ⟨fun s jobs rest hn hjobs hes => ?_, fun kmax b jobs rest hn hjobs hes => ?_⟩
  · obtain ⟨c, hrun, hregs, hfly, hedges, hrsp⟩ := run_of_schedule jobs s.toBlock rest hn hjobs hes
    exact ⟨⟨c⟩, (run_core_eq_iff _ s ⟨c⟩).mpr hrun, hregs, hfly, hedges, fun h => hrsp (.inl h)⟩
  · obtain ⟨c, hrun, hregs, hfly, hedges, hrsp⟩ := run_of_schedule jobs b rest hn hjobs hes
    exact ⟨c, hrun, hregs, hfly, hedges, fun h => hrsp (.inl h)⟩

/-- Entry `m` of the trace is what the first `m + 1` words leave (R156). -/
theorem trace_getElem? {kmax : Nat} (ws : List (CmdWord kmax)) (r : Regs kmax) (m : Nat) (hm : m < ws.length) :
    (r.trace ws)[m]? = some (r.runWords (ws.take (m + 1))) := by
  induction ws generalizing r m with
  | nil => exact absurd hm (Nat.not_lt_zero m)
  | cons w ws ih =>
    cases m with
    | zero => rfl
    | succ m => exact ih (r.transact w) m (Nat.lt_of_succ_lt_succ hm)

/-- The trace has one entry for each word (R156). -/
theorem length_trace {kmax : Nat} (ws : List (CmdWord kmax)) (r : Regs kmax) : (r.trace ws).length = ws.length := by
  induction ws generalizing r with
  | nil => rfl
  | cons w ws ih => exact congrArg (· + 1) (ih (r.transact w))

/-- Settles O20: the length and the entries of the trace. -/
theorem traceListsEveryResponse : Obligations.TraceListsEveryResponse := by
  unfold Obligations.TraceListsEveryResponse
  exact fun kmax r ws => ⟨length_trace ws r, trace_getElem? ws r⟩

end Sys2Proof.Machine

/-! PROOFS. The positions of a layout (spec/40_layout_build.md sections 1 to 3): the parity count, the table of records,
the parity and the data positions, the covers; and the layout that BUILD installs (section 5). -/

namespace Sys2Proof.Machine

/-- `K(n)` is the one exponent that is enough while no smaller one is (R60). -/
theorem parityCount_eq_iff (n k : Nat) :
    parityCount n = k ↔ n + k + 1 ≤ 2 ^ k ∧ ∀ j < k, 2 ^ j < n + j + 1 := by
  constructor
  · rintro rfl
    exact parityCount_least n
  · rintro ⟨henough, hleast⟩
    refine Nat.le_antisymm ((parityCount_le_iff n k).mpr henough) (Nat.not_lt.mp fun hlt => ?_)
    exact Nat.not_lt.mpr (parityCount_least n).1 (hleast _ hlt)

/-- One parity bit is never the least number: it would serve the width 0, which needs none (R60). -/
theorem parityCount_ne_one (n : Nat) : parityCount n ≠ 1 := by
  intro h
  obtain ⟨henough, hleast⟩ := (parityCount_eq_iff n 1).mp h
  have h0 := hleast 0 Nat.one_pos
  omega

/-- A wider data unit needs no fewer parity bits (R60). -/
theorem parityCount_mono {n n' : Nat} (h : n ≤ n') : parityCount n ≤ parityCount n' := by
  have henough := (parityCount_least n').1
  exact (parityCount_le_iff n _).mpr (by omega)

/-- There is a data position for every bit of the data unit (R62). -/
theorem le_dataCount_parityCount (n : Nat) : n ≤ dataCount (parityCount n) := by
  have henough := (parityCount_least n).1
  rw [dataCount, codewordLength]
  omega

/-- Settles O26: the search gives the least exponent, and the other three parts follow from its being the least. -/
theorem parityCountIsLeast : Obligations.ParityCountIsLeast := by
  unfold Obligations.ParityCountIsLeast
  exact ⟨parityCount_eq_iff, parityCount_ne_one, fun n n' h => parityCount_mono h, le_dataCount_parityCount⟩

/-- `T` is the last number of `k` binary digits (R61, R64). -/
theorem le_codewordLength_iff {k i : Nat} : i ≤ codewordLength k ↔ i < 2 ^ k := by
  have hpos := Nat.two_pow_pos k
  rw [codewordLength]
  omega

/-- The powers of two up to `T` are those of the `k` groups (R65). -/
theorem two_pow_le_codewordLength_iff {k p : Nat} : 2 ^ p ≤ codewordLength k ↔ p < k := by
  rw [le_codewordLength_iff, Nat.pow_lt_pow_iff_right Nat.one_lt_two]

/-- The group of a position (R66). -/
theorem parityGroup_eq_some_iff (i p : Nat) : parityGroup i = some p ↔ i = 2 ^ p := by
  unfold parityGroup
  split
  case isTrue h =>
    obtain ⟨q, rfl⟩ := (isParity_iff i).mp h
    rw [Option.some_inj, Nat.log2_two_pow]
    exact (Nat.pow_right_injective (le_refl 2)).eq_iff.symm
  case isFalse h =>
    refine iff_of_false (by simp) fun hi => h ((isParity_iff i).mpr ⟨p, hi⟩)

/-- The positions, counted from 1 (R61). -/
theorem indices_eq_range' (k : Nat) : indices k = List.range' 1 (2 ^ k - 1) := by
  rw [indices, List.range'_eq_map_range, codewordLength]
  exact List.map_congr_left fun i _ => Nat.add_comm i 1

/-- The table has one record for each position, in order (R67). -/
theorem map_index_positions (k : Nat) : (positions k).map BitPosition.index = indices k := by
  rw [positions, List.map_map]
  exact List.map_id _

/-- Settles O27: the record of each position, read field by field. -/
theorem positionTable : Obligations.PositionTable := by
  unfold Obligations.PositionTable
  refine fun k => ⟨by rw [map_index_positions, indices_eq_range'], fun b hb => ?_⟩
  obtain ⟨i, hi, rfl⟩ := List.mem_map.mp hb
  obtain ⟨-, hT⟩ := (mem_indices k i).mp hi
  refine ⟨Nat.mod_eq_of_lt (le_codewordLength_iff.mp hT), fun p hp => ?_, ?_, parityGroup_eq_some_iff i⟩
  · simp only [bitPosition, digit, BitVec.getLsbD_ofNat, hp, decide_true, Bool.true_and]
  · refine (isParity_iff i).trans ⟨?_, fun ⟨p, _, hp⟩ => ⟨p, hp⟩⟩
    rintro ⟨p, rfl⟩
    exact ⟨p, two_pow_le_codewordLength_iff.mp hT, rfl⟩

/-- The parity positions in increasing order (R65). -/
theorem filter_isParity_indices (k : Nat) : (indices k).filter isParity = (List.range k).map fun p => 2 ^ p := by
  refine ((indices_sorted k).filter _).eq_of_mem_iff ?_ fun i => ?_
  · exact List.pairwise_map.mpr (List.pairwise_lt_range.imp (Nat.pow_lt_pow_right Nat.one_lt_two))
  · simp only [List.mem_filter, mem_indices, isParity_iff, List.mem_map, List.mem_range]
    constructor
    · rintro ⟨⟨-, hT⟩, p, rfl⟩
      exact ⟨p, two_pow_le_codewordLength_iff.mp hT, rfl⟩
    · rintro ⟨p, hp, rfl⟩
      exact ⟨⟨Nat.one_le_two_pow, two_pow_le_codewordLength_iff.mpr hp⟩, p, rfl⟩

/-- A larger layout extends the list of data positions (R68). -/
theorem dataPositions_append {k k' : Nat} (h : k ≤ k') : ∃ L, dataPositions k' = dataPositions k ++ L := by
  induction k', h using Nat.le_induction with
  | base => exact ⟨[], (List.append_nil _).symm⟩
  | succ k' _ ih =>
    obtain ⟨L, hL⟩ := ih
    exact ⟨_, by rw [dataPositions_succ, hL, List.append_assoc]⟩

/-- A data position is where it is in every larger layout (R68). -/
theorem dataPos_eq_of_le {k k' j : Nat} (h : k ≤ k') (hj : j < dataCount k) : dataPos k' j = dataPos k j := by
  obtain ⟨L, hL⟩ := dataPositions_append h
  rw [dataPos, hL, List.getElem?_append_left (by rwa [length_dataPositions]), dataPos]

/-- Settles O28: both lists keep the order of the positions, and one more parity bit appends positions only. -/
theorem parityAndDataPositions : Obligations.ParityAndDataPositions := by
  unfold Obligations.ParityAndDataPositions
  refine ⟨filter_isParity_indices, fun k => ⟨dataPositions_sorted k, fun i => ?_⟩, fun k hk => ?_,
    fun k k' j h hj => dataPos_eq_of_le h hj⟩
  · rw [mem_dataPositions, and_assoc, codewordLength]
  · rw [dataPos_eq_of_le hk (by decide)]
    rfl

/-- Half of the numbers of `k` binary digits have digit `p` set. -/
theorem count_testBit {k p : Nat} (hp : p < k) : Nat.count (fun i => i.testBit p = true) (2 ^ k) = 2 ^ (k - 1) := by
  induction k with
  | zero => exact absurd hp (Nat.not_lt_zero p)
  | succ k ih =>
    rw [Nat.pow_succ, Nat.mul_two, Nat.count_add, Nat.add_sub_cancel]
    rcases Nat.lt_succ_iff_lt_or_eq.mp hp with h | rfl
    · simp only [Nat.testBit_two_pow_add_gt h, ih h]
      rw [← Nat.mul_two, ← Nat.pow_succ, Nat.succ_eq_add_one, Nat.sub_add_cancel (Nat.zero_lt_of_lt h)]
    · have hlow : Nat.count (fun i => i.testBit p = true) (2 ^ p) = 0 :=
        Nat.count_iff_forall_not.mpr fun i hi => by simp [Nat.testBit_lt_two_pow hi]
      have hhigh : Nat.count (fun i => (2 ^ p + i).testBit p = true) (2 ^ p) = 2 ^ p :=
        Nat.count_iff_forall.mpr fun i hi => by simp [Nat.testBit_two_pow_add_eq, Nat.testBit_lt_two_pow hi]
      rw [hlow, hhigh, Nat.zero_add]

/-- Each group covers half of the `2^k` numbers of `k` digits, 0 not among them (R69). -/
theorem length_cover {k p : Nat} (hp : p < k) : (cover k p).length = 2 ^ (k - 1) := by
  have hT : codewordLength k + 1 = 2 ^ k := Nat.sub_add_cancel (Nat.two_pow_pos k)
  rw [← count_testBit hp, ← hT, Nat.count_succ', cover, ← List.countP_eq_length_filter, indices, List.countP_map]
  simp [Nat.count, digit, Function.comp_def]

/-- A parity position is covered by its own group alone (R70). -/
theorem two_pow_mem_cover_iff {k p : Nat} (hp : p < k) (q : Nat) : 2 ^ p ∈ cover k q ↔ q = p := by
  rw [mem_cover, Nat.testBit_two_pow, decide_eq_true_iff, eq_comm]
  exact and_iff_right ⟨Nat.one_le_two_pow, two_pow_le_codewordLength_iff.mpr hp⟩

/-- A position with digit `p` set is in the cover of one of the `k` groups (R69). -/
theorem mem_cover_of_testBit {k i p : Nat} (hT : i ≤ codewordLength k) (hb : i.testBit p = true) :
    p < k ∧ i ∈ cover k p := by
  have hge : 2 ^ p ≤ i := Nat.ge_two_pow_of_testBit hb
  exact ⟨two_pow_le_codewordLength_iff.mp (hge.trans hT),
    (mem_cover k p i).mpr ⟨⟨Nat.one_le_two_pow.trans hge, hT⟩, hb⟩⟩

/-- A data position is no power of two, so at least two of its digits are set and two groups cover it (R70). -/
theorem exists_two_covers {k i : Nat} (hi : i ∈ dataPositions k) :
    ∃ q q', q < q' ∧ q' < k ∧ i ∈ cover k q ∧ i ∈ cover k q' := by
  obtain ⟨⟨h1, hT⟩, hne⟩ := (mem_dataPositions k i).mp hi
  obtain ⟨p, hp⟩ := Nat.exists_testBit_of_ne_zero (Nat.ne_of_gt h1)
  obtain ⟨q, hq⟩ := Nat.exists_testBit_of_ne_zero (mt Nat.xor_eq_zero_iff.mp (hne p))
  rw [Nat.testBit_xor, Nat.testBit_two_pow] at hq
  have hpq : p ≠ q := by
    rintro rfl
    simp [hp] at hq
  obtain ⟨hpk, hpc⟩ := mem_cover_of_testBit hT hp
  obtain ⟨hqk, hqc⟩ := mem_cover_of_testBit hT (p := q) (by simpa [hpq] using hq)
  rcases Nat.lt_or_gt_of_ne hpq with h | h
  · exact ⟨p, q, h, hqk, hpc, hqc⟩
  · exact ⟨q, p, h, hpk, hqc, hpc⟩

/-- Collecting the `k` low bits of a word takes its low bits. -/
theorem collect_testBit {k i : Nat} (h : i < 2 ^ k) : collect k i.testBit = i := by
  refine Nat.eq_of_testBit_eq fun b => ?_
  rw [testBit_collect, ← Nat.testBit_mod_two_pow, Nat.mod_eq_of_lt h]

/-- The bits of a cover mask are the covered positions (R69). -/
theorem testBit_coverMask (k p b : Nat) : (coverMask k p).testBit b = true ↔ b + 1 ∈ cover k p := by
  simp [coverMask, digit]

/-- Settles O29: the digits of the index of a position are the groups that cover it. -/
theorem parityCheckMatrix : Obligations.ParityCheckMatrix := by
  unfold Obligations.ParityCheckMatrix
  exact fun k p hp => ⟨length_cover hp, fun q _ => two_pow_mem_cover_iff hp q, fun i hi => exists_two_covers hi,
    fun i _ hT => collect_testBit (le_codewordLength_iff.mp hT), testBit_coverMask k p⟩

section Build
variable {kmax : Nat} (r : Regs kmax) {arg : Nat}

/-- The widths that BUILD accepts need at most `KMAX` parity bits (R127). -/
theorem parityCount_le_of_le_nmax (h : arg ≤ Config.nmax kmax) : parityCount arg ≤ kmax :=
  Nat.not_lt.mp fun hlt => Nat.not_lt.mpr h ((nmax_lt_iff kmax arg).mpr hlt)

/-- The layout of every accepted width fits the layout registers, so that BUILD truncates nothing (R73). -/
theorem build_layout (h : arg ≤ Config.nmax kmax) :
    (r.build arg).lv = true ∧ (r.build arg).ln.toNat = arg ∧ (r.build arg).lk.toNat = parityCount arg ∧
    (r.build arg).lt.toNat = 2 ^ parityCount arg - 1 ∧ (r.build arg).Response .ok 0 0 0 := by
  have hk := parityCount_le_of_le_nmax h
  have hpos := Nat.two_pow_pos kmax
  have hn : arg < 2 ^ kmax := by
    simp only [Config.nmax, Config.tmax] at h
    omega
  have hkw : parityCount arg < 2 ^ Config.kw kmax := Nat.lt_of_le_of_lt hk Nat.lt_log2_self
  have hT : codewordLength (parityCount arg) < 2 ^ kmax := by
    have := Nat.pow_le_pow_right Nat.two_pos hk
    rw [codewordLength]
    omega
  rw [build_done r h]
  exact ⟨rfl, Nat.mod_eq_of_lt hn, Nat.mod_eq_of_lt hkw, Nat.mod_eq_of_lt hT, rfl, rfl, rfl, rfl⟩

end Build

/-- Settles O31: no field of the layout is wider than its register. -/
theorem buildInstallsTheLayout : Obligations.BuildInstallsTheLayout := by
  unfold Obligations.BuildInstallsTheLayout
  intro kmax r len arg _ h
  obtain ⟨hlv, hln, hlk, hlt, hresp⟩ := build_layout r h
  exact ⟨hlv, hln, hlk, hlt, parityCount_le_of_le_nmax h, hresp⟩

/-- Settles O30: the layout of BUILD at the reference size, whose `NMAX` is 11. -/
theorem buildCompletes : Obligations.BuildCompletes := by
  unfold Obligations.BuildCompletes
  intro s len arg h
  obtain ⟨hlv, hln, hlk, hlt, hresp⟩ := build_layout s.regs h
  exact ⟨_, parityCount arg, exec_eq _ s, parityCount_least arg, hlv, hln, hlk, hlt, hresp, rfl, rfl, rfl⟩

end Sys2Proof.Machine

/-! PROOFS. The syndrome unit (spec/41_syndrome_unit.md): the equivalent forms, linearity, what flips do, and the word
nearest to a received one. -/

namespace Sys2Proof.Machine

section Xor
variable {f : Nat → Bool}

theorem xorOver_map (S : List Nat) (g : Nat → Nat) (f : Nat → Bool) :
    xorOver (S.map g) f = xorOver S fun i => f (g i) := by
  rw [xorOver, List.foldl_map, xorOver]

theorem xorOver_eq_false {S : List Nat} (h : ∀ i ∈ S, f i = false) : xorOver S f = false := by
  induction S with
  | nil => rfl
  | cons i S ih => rw [xorOver_cons, h i List.mem_cons_self, ih fun j hj => h j (List.mem_cons_of_mem _ hj)]; rfl

/-- Counting on beyond the last `true` changes nothing. -/
theorem xorOver_range_of_le {a b : Nat} (hab : a ≤ b) (h : ∀ i, a ≤ i → f i = false) :
    xorOver (List.range b) f = xorOver (List.range a) f := by
  induction b, hab using Nat.le_induction with
  | base => rfl
  | succ b hab ih => rw [List.range_succ, xorOver_append, ih, xorOver_cons, h b hab, xorOver_nil]; simp

/-- The parity of a word of at most `N` bits is the XOR of these (R7). -/
theorem parity_eq_of_lt {v N : Nat} (h : v < 2 ^ N) : parity v = xorOver (List.range N) v.testBit := by
  have hlow : ∀ i, N ≤ i → v.testBit i = false := fun i hi =>
    Nat.testBit_lt_two_pow (Nat.lt_of_lt_of_le h (Nat.pow_le_pow_right Nat.two_pos hi))
  have hlog : ∀ i, v.log2 + 1 ≤ i → v.testBit i = false := fun i hi =>
    Nat.testBit_lt_two_pow (Nat.lt_of_lt_of_le Nat.lt_log2_self (Nat.pow_le_pow_right Nat.two_pos hi))
  rcases Nat.le_total N (v.log2 + 1) with hN | hN
  · exact xorOver_range_of_le hN hlow
  · exact (xorOver_range_of_le hN hlog).symm

/-- A bit of the XOR of a list of words. -/
theorem testBit_foldl_xor (L : List Nat) (a p : Nat) :
    (L.foldl (· ^^^ ·) a).testBit p = (a.testBit p ^^ xorOver L fun i => i.testBit p) := by
  induction L generalizing a with
  | nil => simp
  | cons i L ih => rw [List.foldl_cons, ih, Nat.testBit_xor, xorOver_cons, Bool.xor_assoc]

end Xor

section Forms
variable (k w : Nat)

/-- The parity of a group, summed over all positions (R69, R80). -/
theorem groupParity_eq_xorOver_indices (p : Nat) :
    groupParity k w p = xorOver (indices k) fun i => digit i p && pos w i := by
  rw [groupParity, cover, xorOver_filter]

/-- Form (a) of R82. -/
theorem parity_and_coverMask (p : Nat) : parity (w &&& coverMask k p) = groupParity k w p := by
  have hlt : w &&& coverMask k p < 2 ^ codewordLength k := Nat.and_lt_two_pow _ (collect_lt _ _)
  rw [parity_eq_of_lt hlt, groupParity_eq_xorOver_indices, indices, xorOver_map]
  refine xorOver_congr fun b hb => ?_
  simp [coverMask, pos, List.mem_range.mp hb, Bool.and_comm]

/-- Form (b) of R82. -/
theorem syndrome_eq_syndromeByIndex : syndrome k w = syndromeByIndex k w := by
  refine Nat.eq_of_testBit_eq fun p => ?_
  rw [syndromeByIndex, testBit_foldl_xor, xorOver_filter, Nat.zero_testBit, Bool.false_xor, testBit_syndrome]
  by_cases hp : p < k
  · rw [groupParity_eq_xorOver_indices, decide_eq_true hp, Bool.true_and]
    exact xorOver_congr fun i _ => Bool.and_comm _ _
  · rw [decide_eq_false hp, Bool.false_and, xorOver_eq_false]
    intro i hi
    have hlt : i < 2 ^ k := le_codewordLength_iff.mp ((mem_indices k i).mp hi).2
    rw [Nat.testBit_lt_two_pow (hlt.trans_le (Nat.pow_le_pow_right Nat.two_pos (Nat.not_lt.mp hp))), Bool.and_false]

/-- Form (c) of R82. -/
theorem syndrome_eq_syndromeByMatrix : syndrome k w = syndromeByMatrix k w :=
  collect_congr fun p _ => groupParity_eq_xorOver_indices k w p

end Forms

/-- Settles O35: each form is a way to sum the set positions that a group covers. -/
theorem syndromeForms : Obligations.SyndromeForms := by
  unfold Obligations.SyndromeForms
  exact fun k w _ => ⟨collect_congr fun p _ => (parity_and_coverMask k w p).symm, syndrome_eq_syndromeByIndex k w,
    syndrome_eq_syndromeByMatrix k w⟩

theorem flip_eq (w i : Nat) : flip w i = w ^^^ 2 ^ (i - 1) := by rw [flip, Nat.one_shiftLeft]

/-- The syndrome is linear (R84). -/
theorem syndrome_xor (k w v : Nat) : syndrome k (w ^^^ v) = syndrome k w ^^^ syndrome k v := by
  refine Nat.eq_of_testBit_eq fun p => ?_
  rw [Nat.testBit_xor, testBit_syndrome, testBit_syndrome, testBit_syndrome, groupParity_xor, Bool.and_xor_distrib_left]

@[simp] theorem syndrome_zero (k : Nat) : syndrome k 0 = 0 := by
  have h := syndrome_xor k 0 0
  rwa [Nat.xor_self, Nat.xor_self] at h

/-- Flipping a position adds its index to the syndrome (R84). -/
theorem syndrome_flip {k w i : Nat} (h1 : 1 ≤ i) (hT : i ≤ codewordLength k) :
    syndrome k (flip w i) = syndrome k w ^^^ i := by
  refine Nat.eq_of_testBit_eq fun p => ?_
  rw [Nat.testBit_xor, testBit_syndrome, testBit_syndrome, groupParity_flip h1 hT, Bool.and_xor_distrib_left,
    ← Nat.testBit_mod_two_pow i, Nat.mod_eq_of_lt (le_codewordLength_iff.mp hT)]

/-- Settles O36: the group parities are linear, and a flip toggles the groups that cover the position. -/
theorem syndromeLaws : Obligations.SyndromeLaws := by
  unfold Obligations.SyndromeLaws
  refine fun k w v => ⟨le_codewordLength_iff.mpr (syndrome_lt k w), syndrome_zero k, syndrome_xor k w v,
    fun i h1 hT => ⟨?_, syndrome_flip h1 hT⟩⟩
  have hunit : flip 0 i = 2 ^ (i - 1) := by rw [flip_eq, Nat.zero_xor]
  rw [← hunit, syndrome_flip h1 hT, syndrome_zero, Nat.zero_xor]

/-- A codeword of the layout (R85). -/
theorem isCodeword_iff (k w : Nat) : isCodeword k w = true ↔ w < 2 ^ codewordLength k ∧ syndrome k w = 0 := by
  simp [isCodeword]

/-- A flip within the layout's length leaves the word that long. -/
theorem flip_lt {T w i : Nat} (hw : w < 2 ^ T) (h1 : 1 ≤ i) (hT : i ≤ T) : flip w i < 2 ^ T := by
  rw [flip_eq]
  exact Nat.xor_lt_two_pow hw (Nat.pow_lt_pow_right Nat.one_lt_two (by omega))

/-- One flip makes a codeword of a word exactly at the position that the syndrome names (R88). -/
theorem isCodeword_flip_iff {k w i : Nat} (hw : w < 2 ^ codewordLength k) (h1 : 1 ≤ i) (hT : i ≤ codewordLength k) :
    isCodeword k (flip w i) = true ↔ i = syndrome k w := by
  rw [isCodeword_iff, syndrome_flip h1 hT, Nat.xor_eq_zero_iff, and_iff_right (flip_lt hw h1 hT), eq_comm]

/-- A syndrome other than 0 is a position of the layout (R83). -/
theorem syndrome_isPosition {k w : Nat} (h : syndrome k w ≠ 0) :
    1 ≤ syndrome k w ∧ syndrome k w ≤ codewordLength k :=
  ⟨Nat.one_le_iff_ne_zero.mpr h, le_codewordLength_iff.mpr (syndrome_lt k w)⟩

/-- Settles O37: the flip at `i` leaves the syndrome `s ^ i`, which is 0 for `i = s` only. -/
theorem everyWordIsNearOneCodeword : Obligations.EveryWordIsNearOneCodeword := by
  unfold Obligations.EveryWordIsNearOneCodeword
  intro k w hw hs
  obtain ⟨h1, hT⟩ := syndrome_isPosition hs
  exact ⟨(isCodeword_flip_iff hw h1 hT).mpr rfl, fun i h1 hT => (isCodeword_flip_iff hw h1 hT).mp⟩

end Sys2Proof.Machine

/-! PROOFS. The encoder (spec/42_encode.md): each position of a codeword, the parity equations, linearity and
distance. -/

namespace Sys2Proof.Machine

section Positions
variable {k : Nat}

/-- Words are equal when their positions are (R7). -/
theorem eq_of_pos {w v : Nat} (h : ∀ i, 1 ≤ i → pos w i = pos v i) : w = v :=
  Nat.eq_of_testBit_eq fun b => h (b + 1) (Nat.le_add_left 1 b)

theorem pos_xor (w v i : Nat) : pos (w ^^^ v) i = (pos w i ^^ pos v i) := Nat.testBit_xor w v (i - 1)

@[simp] theorem pos_zero (i : Nat) : pos 0 i = false := Nat.zero_testBit _

/-- Every data position holds a data bit or a pad bit (R65, R68). -/
theorem exists_dataPos_of_mem {i : Nat} (h : i ∈ dataPositions k) : ∃ j, dataPos k j = some i :=
  List.mem_iff_getElem?.mp h

/-- A position is a parity position, a data position, or above the codeword (R65). -/
theorem position_cases {i : Nat} (k : Nat) (h1 : 1 ≤ i) :
    (∃ p < k, i = 2 ^ p) ∨ (∃ j, dataPos k j = some i) ∨ codewordLength k < i := by
  rcases Nat.lt_or_ge (codewordLength k) i with hT | hT
  · exact .inr (.inr hT)
  · by_cases hp : ∃ p, i = 2 ^ p
    · obtain ⟨p, rfl⟩ := hp
      exact .inl ⟨p, two_pow_le_codewordLength_iff.mp hT, rfl⟩
    · exact .inr (.inl (exists_dataPos_of_mem ((mem_dataPositions k i).mpr ⟨⟨h1, hT⟩, not_exists.mp hp⟩)))

/-- A data position is a position of the layout. -/
theorem dataPos_bounds {j i : Nat} (h : dataPos k j = some i) : 1 ≤ i ∧ i ≤ codewordLength k :=
  ((mem_dataPositions k i).mp (dataPos_eq_some h).2).1

/-- A data position is no power of two. -/
theorem dataPos_ne_two_pow {j i : Nat} (h : dataPos k j = some i) (p : Nat) : i ≠ 2 ^ p :=
  ((mem_dataPositions k i).mp (dataPos_eq_some h).2).2 p

/-- A word whose positions above `T` are 0 fits `T` bits. -/
theorem lt_two_pow_of_pos {w T : Nat} (h : ∀ i, T < i → pos w i = false) : w < 2 ^ T :=
  Nat.lt_pow_two_of_testBit _ fun b hb => h (b + 1) (Nat.lt_succ_of_le hb)

end Positions

section Scatter
variable (k n d : Nat)

/-- Scatter at a data position: the data bit, or 0 for a pad bit (R90). -/
theorem pos_scatter_of_dataPos {j i : Nat} (h : dataPos k j = some i) :
    pos (scatter k n d) i = (decide (j < n) && d.testBit j) := by
  rw [Bool.eq_iff_iff, pos_scatter k n d i (dataPos_bounds h).1, Bool.and_eq_true, decide_eq_true_iff]
  constructor
  · rintro ⟨j', hj', h', hd⟩
    rw [dataPos_inj h h']
    exact ⟨hj', hd⟩
  · rintro ⟨hj, hd⟩
    exact ⟨j, hj, h, hd⟩

/-- Scatter leaves 0 elsewhere (R90). -/
theorem pos_scatter_of_not_data {i : Nat} (h1 : 1 ≤ i) (h : i ∉ dataPositions k) : pos (scatter k n d) i = false := by
  rw [← Bool.not_eq_true, pos_scatter k n d i h1]
  rintro ⟨j, -, hj, -⟩
  exact h (dataPos_eq_some hj).2

/-- The data bits whose position has digit `p` set, the pad bits left out (R91). -/
def dataBitsOfGroup (k n p : Nat) : List Nat :=
  (List.range n).filter fun j => (dataPos k j).elim false fun i => i.testBit p

/-- Replacing a 0 is flipping it or not. -/
theorem setpos_of_pos_false {w i : Nat} (h : pos w i = false) (b : Bool) :
    setpos w i b = if b then flip w i else w := by
  cases b <;> simp [setpos, h]

/-- The group parity of the scattered word is the XOR of the data bits in the group (R91, R93). -/
theorem groupParity_scatter (p : Nat) :
    groupParity k (scatter k n d) p = xorOver (dataBitsOfGroup k n p) d.testBit := by
  induction n with
  | zero => exact xorOver_eq_false fun i _ => pos_zero i
  | succ n ih =>
    have hscatter : scatter k (n + 1) d = placeDataBit k d (scatter k n d) n := by
      rw [scatter, List.range_succ, List.foldl_append]
      rfl
    rw [hscatter, dataBitsOfGroup, List.range_succ, List.filter_append, xorOver_append, ← dataBitsOfGroup, ← ih,
      placeDataBit]
    cases hpos : dataPos k n with
    | none => simp [hpos]
    | some i =>
      obtain ⟨h1, hT⟩ := dataPos_bounds hpos
      have hfree : pos (scatter k n d) i = false := by simp [pos_scatter_of_dataPos k n d hpos]
      simp only [setpos_of_pos_false hfree]
      cases hd : d.testBit n <;> cases hi : i.testBit p <;> simp [hpos, hd, hi, groupParity_flip h1 hT]

/-- The document's parity bit, over the data positions only, is the group parity of a word whose parity positions are
0 (R91, R93). -/
theorem parityBit_scatter (p : Nat) : parityBit k (scatter k n d) p = groupParity k (scatter k n d) p := by
  rw [parityBit, xorOver_filter, groupParity]
  refine xorOver_congr fun i hi => ?_
  obtain ⟨⟨h1, -⟩, -⟩ := (mem_cover k p i).mp hi
  cases hpar : isParity i with
  | false => rfl
  | true =>
    obtain ⟨q, rfl⟩ := (isParity_iff i).mp hpar
    rw [pos_scatter_of_not_data k n d h1 (by simp)]
    rfl

end Scatter

/-- Settles O38: the scattered word is 0 at the parity positions that the document leaves out. -/
theorem parityVectorIsSyndrome : Obligations.ParityVectorIsSyndrome := by
  unfold Obligations.ParityVectorIsSyndrome
  intro k n d p hp
  rw [parityBit_scatter, testBit_syndrome, decide_eq_true hp, Bool.true_and]

section Codeword
variable {k : Nat} (n d : Nat)

/-- Storing the parity bits leaves every other position (R92). -/
theorem pos_storeParity_of_ne (u par : Nat) {i : Nat} (h1 : 1 ≤ i) (h : ∀ p < k, i ≠ 2 ^ p) :
    pos (storeParity k u par) i = pos u i := by
  rw [Bool.eq_iff_iff, pos_storeParity k u par i h1, and_iff_right h]
  exact or_iff_right fun ⟨p, hp, hi, _⟩ => h p hp hi

/-- Position `2^p` holds parity bit `p` (R92). -/
theorem pos_storeParity_two_pow (u par : Nat) {p : Nat} (hp : p < k) :
    pos (storeParity k u par) (2 ^ p) = par.testBit p := by
  rw [Bool.eq_iff_iff, pos_storeParity k u par _ Nat.one_le_two_pow]
  constructor
  · rintro (⟨q, -, hq, hb⟩ | ⟨hne, -⟩)
    · rwa [Nat.pow_right_injective (le_refl 2) hq]
    · exact absurd rfl (hne p hp)
  · exact fun hb => .inl ⟨p, hp, rfl, hb⟩

/-- A data position of a codeword (R90, R92). -/
theorem pos_encodeUnit_of_dataPos {j i : Nat} (h : dataPos k j = some i) :
    pos (encodeUnit k n d) i = (decide (j < n) && d.testBit j) := by
  rw [encodeUnit, pos_storeParity_of_ne _ _ (dataPos_bounds h).1 fun p _ => dataPos_ne_two_pow h p,
    pos_scatter_of_dataPos k n d h]

/-- A parity position of a codeword (R91, R92). -/
theorem pos_encodeUnit_two_pow {p : Nat} (hp : p < k) :
    pos (encodeUnit k n d) (2 ^ p) = xorOver (dataBitsOfGroup k n p) d.testBit := by
  rw [encodeUnit, pos_storeParity_two_pow _ _ hp, testBit_syndrome, decide_eq_true hp, Bool.true_and,
    groupParity_scatter]

/-- There is nothing above the layout's length (R33). -/
theorem pos_encodeUnit_of_gt {i : Nat} (h : codewordLength k < i) : pos (encodeUnit k n d) i = false := by
  have h1 : 1 ≤ i := Nat.one_le_of_lt h
  have hne : ∀ p < k, i ≠ 2 ^ p := fun p hp hi =>
    Nat.not_lt.mpr (two_pow_le_codewordLength_iff.mpr hp) (hi ▸ h)
  rw [encodeUnit, pos_storeParity_of_ne _ _ h1 hne]
  exact pos_scatter_of_not_data k n d h1 fun hmem => Nat.not_lt.mpr ((mem_dataPositions k i).mp hmem).1.2 h

theorem encodeUnit_lt (k : Nat) : encodeUnit k n d < 2 ^ codewordLength k :=
  lt_two_pow_of_pos fun _ h => pos_encodeUnit_of_gt n d h

/-- The one parity position that a group covers is its own (R70). -/
theorem filter_isParity_cover {p : Nat} (hp : p < k) : (cover k p).filter isParity = [2 ^ p] := by
  refine (((indices_sorted k).filter _).filter _).eq_of_mem_iff (List.pairwise_singleton _ _) fun i => ?_
  rw [List.mem_filter, List.mem_singleton, isParity_iff]
  constructor
  · rintro ⟨hi, q, rfl⟩
    obtain ⟨⟨-, hT⟩, -⟩ := (mem_cover k p _).mp hi
    rw [(two_pow_mem_cover_iff (two_pow_le_codewordLength_iff.mp hT) p).mp hi]
  · rintro rfl
    exact ⟨(two_pow_mem_cover_iff hp p).mpr rfl, p, rfl⟩

/-- A group parity is the stored parity bit and the parity over the data positions (R91). -/
theorem groupParity_eq_parityBit (c : Nat) {p : Nat} (hp : p < k) :
    groupParity k c p = (pos c (2 ^ p) ^^ parityBit k c p) := by
  have hown : pos c (2 ^ p) = xorOver ((cover k p).filter isParity) (pos c) := by
    rw [filter_isParity_cover hp, xorOver_cons, xorOver_nil, Bool.xor_false]
  rw [hown, parityBit, xorOver_filter, xorOver_filter, ← xorOver_xor, groupParity]
  exact xorOver_congr fun i _ => by cases isParity i <;> simp

/-- The stored parity bit makes the parity of its group even (R97). -/
theorem groupParity_encodeUnit {p : Nat} (hp : p < k) : groupParity k (encodeUnit k n d) p = false := by
  have hdata : parityBit k (encodeUnit k n d) p = parityBit k (scatter k n d) p := by
    refine xorOver_congr fun i hi => ?_
    obtain ⟨hcover, hpar⟩ := List.mem_filter.mp hi
    obtain ⟨⟨h1, -⟩, -⟩ := (mem_cover k p i).mp hcover
    refine pos_storeParity_of_ne _ _ h1 fun q _ hq => ?_
    simp [hq] at hpar
  rw [groupParity_eq_parityBit _ hp, hdata, parityBit_scatter, groupParity_scatter, pos_encodeUnit_two_pow n d hp,
    Bool.xor_self]

@[simp] theorem syndrome_encodeUnit : syndrome k (encodeUnit k n d) = 0 := by
  refine Nat.eq_of_testBit_eq fun p => ?_
  by_cases hp : p < k
  · simp [groupParity_encodeUnit n d hp]
  · simp [hp]

end Codeword

/-- Settles O40: the encoder's result fits the layout's length, and every group parity is even. -/
theorem encodedWordIsCodeword : Obligations.EncodedWordIsCodeword := by
  unfold Obligations.EncodedWordIsCodeword
  exact fun k n d _ => (isCodeword_iff _ _).mpr ⟨encodeUnit_lt n d k, syndrome_encodeUnit n d⟩

/-- ENCODE is linear (R99). -/
theorem encodeUnit_xor (k n d e : Nat) : encodeUnit k n (d ^^^ e) = encodeUnit k n d ^^^ encodeUnit k n e := by
  refine eq_of_pos fun i h1 => ?_
  rw [pos_xor]
  obtain ⟨p, hp, rfl⟩ | ⟨j, hj⟩ | hT := position_cases k h1
  · rw [pos_encodeUnit_two_pow _ _ hp, pos_encodeUnit_two_pow _ _ hp, pos_encodeUnit_two_pow _ _ hp, ← xorOver_xor]
    exact xorOver_congr fun j _ => Nat.testBit_xor d e j
  · rw [pos_encodeUnit_of_dataPos _ _ hj, pos_encodeUnit_of_dataPos _ _ hj, pos_encodeUnit_of_dataPos _ _ hj,
      Nat.testBit_xor, Bool.and_xor_distrib_left]
  · rw [pos_encodeUnit_of_gt _ _ hT, pos_encodeUnit_of_gt _ _ hT, pos_encodeUnit_of_gt _ _ hT, Bool.xor_false]

/-- A data unit other than 0 sets a data position. -/
theorem exists_pos_encodeUnit {k n d : Nat} (hn : n ≤ dataCount k) (hd : d < 2 ^ n) (h0 : d ≠ 0) :
    ∃ i ∈ indices k, pos (encodeUnit k n d) i = true := by
  obtain ⟨j, hj⟩ := Nat.exists_testBit_of_ne_zero h0
  have hjn : j < n := (Nat.pow_lt_pow_iff_right Nat.one_lt_two).mp ((Nat.ge_two_pow_of_testBit hj).trans_lt hd)
  obtain ⟨i, hi⟩ := exists_dataPos (hjn.trans_le hn)
  exact ⟨i, (mem_indices k i).mpr (dataPos_bounds hi), by simp [pos_encodeUnit_of_dataPos n d hi, hjn, hj]⟩

/-- A word with syndrome 0 and some set position has at least three of them: one index or two different ones do not add
up to 0 (R99). -/
theorem three_le_weight {k c : Nat} (hs : syndrome k c = 0) (hc : ∃ i ∈ indices k, pos c i = true) :
    3 ≤ ((indices k).filter (pos c)).length := by
  obtain ⟨i, hi, hpos⟩ := hc
  have hmem : i ∈ (indices k).filter (pos c) := List.mem_filter.mpr ⟨hi, hpos⟩
  have hnodup : ((indices k).filter (pos c)).Nodup := (indices_nodup k).filter _
  have hge : ∀ a ∈ (indices k).filter (pos c), 1 ≤ a := fun a ha =>
    ((mem_indices k a).mp (List.mem_of_mem_filter ha)).1
  rw [syndrome_eq_syndromeByIndex, syndromeByIndex] at hs
  generalize (indices k).filter (pos c) = L at *
  match L with
  | [] => cases hmem
  | [a] =>
    have ha : a = 0 := by simpa using hs
    exact absurd (hge a (by simp)) (by omega)
  | [a, b] =>
    have hab : a = b := by simpa using hs
    simp [hab] at hnodup
  | _ :: _ :: _ :: _ => simp

/-- Settles O41: the difference of two codewords is the codeword of the difference of the data units, which has syndrome
0 and is not 0. -/
theorem encodeDistanceThree : Obligations.EncodeDistanceThree := by
  unfold Obligations.EncodeDistanceThree
  refine fun k n d e hn hd he => ⟨encodeUnit_xor k n d e, fun hne => ?_⟩
  have hdiff : (fun i => pos (encodeUnit k n d) i != pos (encodeUnit k n e) i) = pos (encodeUnit k n (d ^^^ e)) :=
    funext fun i => by rw [encodeUnit_xor, pos_xor]
  rw [hdiff]
  exact three_le_weight (syndrome_encodeUnit n _)
    (exists_pos_encodeUnit hn (Nat.xor_lt_two_pow hd he) (mt Nat.xor_eq_zero_iff.mp hne))

end Sys2Proof.Machine

/-! PROOFS. ENCODE and DECODE on the registers (spec/42_encode.md, spec/43_decode.md): under a legal layout no result is
truncated, and the corrected word is a codeword. -/

namespace Sys2Proof.Machine

section Correction
variable {k : Nat}

/-- The word that DECODE reads (R106). -/
theorem receivedWord_eq (len arg : Nat) : receivedWord len arg = arg % 2 ^ len := and_mask arg len

/-- The corrected word is a codeword of the layout (R118). -/
theorem isCodeword_correct {w : Nat} (hw : w < 2 ^ codewordLength k) :
    isCodeword k (correct w (syndrome k w)) = true := by
  by_cases hs : syndrome k w = 0
  · rw [hs, correct_zero, isCodeword_iff]
    exact ⟨hw, hs⟩
  · obtain ⟨h1, hT⟩ := syndrome_isPosition hs
    rw [correct_of_ne hs, isCodeword_flip_iff hw h1 hT]

/-- A bit of the data unit returned (R112, R113). -/
theorem testBit_resultUnit {n c j i : Nat} (hj : j < n) (h : dataPos k j = some i) :
    (resultUnit k n c).testBit j = pos c i := by
  simp [resultUnit, hj, (dataPos_eq_some h).1, readDataBit_eq h]

theorem resultUnit_lt (k n c : Nat) : resultUnit k n c < 2 ^ n := lowBits_lt _ n

/-- Two data units of an existing layout are equal when their data positions are. -/
theorem resultUnit_eq_iff {n c v : Nat} (hn : n ≤ dataCount k) (hv : v < 2 ^ n) :
    resultUnit k n c = v ↔ ∀ j i, j < n → dataPos k j = some i → pos c i = v.testBit j := by
  constructor
  · rintro rfl j i hj h
    exact (testBit_resultUnit hj h).symm
  · intro h
    refine Nat.eq_of_testBit_eq fun j => ?_
    rcases Nat.lt_or_ge j n with hj | hj
    · obtain ⟨i, hi⟩ := exists_dataPos (hj.trans_le hn)
      rw [testBit_resultUnit hj hi, h j i hj hi]
    · have hpow := Nat.pow_le_pow_right Nat.two_pos hj
      rw [Nat.testBit_lt_two_pow ((resultUnit_lt k n c).trans_le hpow), Nat.testBit_lt_two_pow (hv.trans_le hpow)]

/-- The decoder reads back what the encoder placed (R117). -/
theorem resultUnit_encodeUnit {n v : Nat} (hn : n ≤ dataCount k) (hv : v < 2 ^ n) :
    resultUnit k n (encodeUnit k n v) = v := by
  refine (resultUnit_eq_iff hn hv).mpr fun j i hj h => ?_
  rw [pos_encodeUnit_of_dataPos n v h, decide_eq_true hj, Bool.true_and]

end Correction

section Layouts
variable {kmax : Nat} {r r' : Regs kmax}

/-- What a legal layout gives the codec: room for the data unit, and the length of its `k` (R16). -/
theorem layout_of_lv (hok : r.LayoutOk) (hlv : r.lv = true) :
    r.ln.toNat ≤ dataCount r.lk.toNat ∧ r.lt.toNat = codewordLength r.lk.toNat := by
  obtain ⟨-, hvalid⟩ := hok
  obtain ⟨-, hk, hT⟩ := hvalid hlv
  exact ⟨hk ▸ le_dataCount_parityCount _, hT⟩

/-- Every word of the layout's length fits the buses (R5, R15). -/
theorem lt_tmax_of_lt_lt {w : Nat} (h : w < 2 ^ r.lt.toNat) : w < 2 ^ Config.tmax kmax := by
  have hlt : r.lt.toNat < 2 ^ kmax := r.lt.isLt
  exact h.trans_le (Nat.pow_le_pow_right Nat.two_pos (Nat.le_sub_one_of_lt hlt))

/-- Registers with the same layout are legal together. -/
theorem layoutOk_of_sameLayout (h : r.SameLayout r') (hok : r'.LayoutOk) : r.LayoutOk := by
  obtain ⟨hlv, hln, hlk, hlt⟩ := h
  rwa [Regs.LayoutOk, hlv, hln, hlk, hlt]

end Layouts

section Responses
variable {kmax : Nat} {r : Regs kmax} {len arg : Nat}

/-- ENCODE of a fitting data unit leaves its codeword whole (R96). -/
theorem encode_response (hok : r.LayoutOk) (hlv : r.lv = true) (hd : arg < 2 ^ r.ln.toNat) :
    (r.encode arg).Response .ok (encodeUnit r.lk.toNat r.ln.toNat arg) 0 0 := by
  obtain ⟨-, hT⟩ := layout_of_lv hok hlv
  have hfit : encodeUnit r.lk.toNat r.ln.toNat arg < 2 ^ r.lt.toNat := hT ▸ encodeUnit_lt _ arg _
  rw [encode_done r hlv hd]
  exact ⟨rfl, Nat.mod_eq_of_lt (lt_tmax_of_lt_lt hfit), rfl, rfl⟩

/-- A word of at most `LT` bits is a word of the layout's length (R106). -/
theorem mod_lt_of_le_lt (hL : len ≤ r.lt.toNat) : arg % 2 ^ len < 2 ^ r.lt.toNat :=
  (Nat.mod_lt _ (Nat.two_pow_pos len)).trans_le (Nat.pow_le_pow_right Nat.two_pos hL)

/-- The results of decoding a word of the layout's length are within that length, and the corrected word is a codeword
(R83, R118). -/
theorem decoded_fits (hok : r.LayoutOk) (hlv : r.lv = true) {w : Nat} (hw : w < 2 ^ r.lt.toNat) (c : Nat) :
    resultUnit r.lk.toNat r.ln.toNat c < 2 ^ r.lt.toNat ∧ syndrome r.lk.toNat w ≤ r.lt.toNat ∧
    correct w (syndrome r.lk.toNat w) < 2 ^ r.lt.toNat ∧
    syndrome r.lk.toNat (correct w (syndrome r.lk.toNat w)) = 0 := by
  obtain ⟨hn, hT⟩ := layout_of_lv hok hlv
  rw [hT] at hw ⊢
  refine ⟨?_, le_codewordLength_iff.mpr (syndrome_lt _ w), (isCodeword_iff _ _).mp (isCodeword_correct hw)⟩
  exact (resultUnit_lt _ _ c).trans_le (Nat.pow_le_pow_right Nat.two_pos (hn.trans (Nat.sub_le _ _)))

/-- DECODE leaves the data unit, the syndrome and the corrected word of the received word whole (R116). -/
theorem decode_response (hok : r.LayoutOk) (hlv : r.lv = true) (hL : len ≤ r.lt.toNat) {w s c : Nat}
    (hw : w = arg % 2 ^ len) (hs : s = syndrome r.lk.toNat w) (hc : c = correct w s) :
    (r.decode len arg).Response .ok (resultUnit r.lk.toNat r.ln.toNat c) s c := by
  subst hw hs hc
  obtain ⟨hres, hsyn, hcwc, -⟩ := decoded_fits hok hlv (mod_lt_of_le_lt hL) (correct (arg % 2 ^ len) _)
  rw [decode_done r arg hlv hL, receivedWord_eq]
  exact ⟨rfl, Nat.mod_eq_of_lt (lt_tmax_of_lt_lt hres), Nat.mod_eq_of_lt (hsyn.trans_lt r.lt.isLt),
    Nat.mod_eq_of_lt (lt_tmax_of_lt_lt hcwc)⟩

end Responses

section Apply
variable {kmax : Nat} (r : Regs kmax) (len arg : Nat)

theorem apply_encode : r.apply (.encode len arg) = r.encode arg := rfl

theorem apply_decode : r.apply (.decode len arg) = r.decode len arg := rfl

end Apply

/-- Settles O39: the register holds the codeword whole, whose positions are those of the encoder. -/
theorem encodeCompletes : Obligations.EncodeCompletes := by
  unfold Obligations.EncodeCompletes
  intro s len arg hlv hd
  have hdone := encode_done s.regs hlv hd
  refine ⟨_, exec_eq _ s, congrArg Regs.st hdone, congrArg Regs.syn hdone, congrArg Regs.cwc hdone,
    encode_sameLayout s.regs arg, ⟨rfl, rfl, rfl⟩, fun hok => ?_⟩
  obtain ⟨-, hT⟩ := layout_of_lv hok hlv
  obtain ⟨-, hres, -, -⟩ := encode_response hok hlv hd
  rw [execute_regs, apply_encode, hres, hT]
  exact ⟨encodeUnit_lt _ arg _, fun j i h => pos_encodeUnit_of_dataPos _ arg h,
    fun p hp => pos_encodeUnit_two_pow _ arg hp⟩

/-- Settles O43: the registers hold the decoder's three results whole. -/
theorem decodeCompletes : Obligations.DecodeCompletes := by
  unfold Obligations.DecodeCompletes
  intro s len arg hlv hL
  have hdone := decode_done s.regs arg hlv hL
  refine ⟨_, exec_eq _ s, congrArg Regs.st hdone, decode_sameLayout s.regs len arg, ⟨rfl, rfl, rfl⟩, fun hok => ?_⟩
  obtain ⟨-, hres, hsyn, hcwc⟩ := decode_response hok hlv hL rfl rfl rfl
  have hcorrect : (s.regs.decode len arg).cwc.toNat = correct (arg % 2 ^ len) (s.regs.decode len arg).syn.toNat := by
    rw [hcwc, hsyn]
  rw [execute_regs, apply_decode]
  refine ⟨hsyn.trans (syndrome_eq_syndromeByIndex _ _), fun hzero => ?_, fun hne => ?_, hres ▸ resultUnit_lt _ _ _,
    fun j i hj h => ?_⟩
  · rw [hcorrect, hzero]
    rfl
  · rw [hcorrect, correct_of_ne fun h => hne (BitVec.eq_of_toNat_eq h), flip_eq]
  · rw [hres, hcwc, testBit_resultUnit hj h]

section Masking
variable {kmax : Nat} (r : Regs kmax) {len len' arg arg' : Nat}

/-- DECODE reads no more than the received word and whether the length is accepted (R105, R106). -/
theorem decode_eq_of_word (hw : arg % 2 ^ len = arg' % 2 ^ len') (hL : len ≤ r.lt.toNat ↔ len' ≤ r.lt.toNat) :
    r.decode len arg = r.decode len' arg' := by
  cases hlv : r.lv with
  | false => rw [decode_noLayout r len arg hlv, decode_noLayout r len' arg' hlv]
  | true =>
    by_cases h : len ≤ r.lt.toNat
    · rw [decode_done r arg hlv h, decode_done r arg' hlv (hL.mp h), receivedWord_eq, receivedWord_eq, hw]
    · rw [decode_refused r arg hlv (Nat.not_le.mp h), decode_refused r arg' hlv (Nat.not_le.mp (mt hL.mpr h))]

/-- A DECODE that completes with OK had a layout and an accepted length (R125, R128). -/
theorem lv_and_le_of_decode_ok (h : (r.decode len arg).st = .ok) : r.lv = true ∧ len ≤ r.lt.toNat := by
  cases hlv : r.lv with
  | false => simp [decode_noLayout r len arg hlv] at h
  | true => exact ⟨rfl, (decode_st_eq_ok_iff r arg hlv).mp h⟩

end Masking

/-- Settles O44: the received word is the same, the second time because it has no bit above the layout's length. -/
theorem decodeMasksAboveLength : Obligations.DecodeMasksAboveLength := by
  unfold Obligations.DecodeMasksAboveLength
  refine fun kmax r len arg arg' => ⟨fun h => decode_eq_of_word r h Iff.rfl, fun hL => ?_⟩
  exact decode_eq_of_word r (Nat.mod_eq_of_lt (mod_lt_of_le_lt hL)).symm (iff_of_true hL (Nat.le_refl _))

/-- Settles O46: under a legal layout the received word has the layout's length, and it is corrected at `SYN` if at
all. -/
theorem correctedWordIsCodeword : Obligations.CorrectedWordIsCodeword := by
  unfold Obligations.CorrectedWordIsCodeword
  intro kmax r len arg _ hok hst
  obtain ⟨hlv, hL⟩ := lv_and_le_of_decode_ok r hst
  obtain ⟨-, hT⟩ := layout_of_lv hok hlv
  obtain ⟨-, -, hsyn, hcwc⟩ := decode_response hok hlv hL rfl rfl rfl
  rw [apply_decode, hsyn, hcwc, hT]
  refine ⟨isCodeword_correct (hT ▸ mod_lt_of_le_lt hL), ?_⟩
  by_cases hs : syndrome r.lk.toNat (arg % 2 ^ len) = 0
  · exact .inl (by rw [hs, correct_zero])
  · obtain ⟨h1, hle⟩ := syndrome_isPosition hs
    exact .inr ⟨h1, hle, correct_of_ne hs⟩

end Sys2Proof.Machine

/-! PROOFS. The codec as a whole (spec/43_decode.md section 3): BUILD, ENCODE and DECODE as command words, with no, one
or two positions flipped in between. -/

namespace Sys2Proof.Machine

section Registers
variable {kmax n v : Nat} (r : Regs kmax)

/-- BUILD leaves a legal layout, whatever was there (R16, R73). -/
theorem build_layoutOk (h : n ≤ Config.nmax kmax) : (r.build n).LayoutOk := by
  obtain ⟨hlv, hln, hlk, hlt, -⟩ := build_layout r h
  refine ⟨fun hno => ?_, fun _ => ⟨by rwa [hln], by rw [hlk, hln], by rw [hlt, hlk]⟩⟩
  rw [hlv] at hno
  cases hno

/-- The packed word of a well-formed command runs as that command. -/
theorem transact_encodeWord {i : Instr} (h : wellFormed kmax i = true) :
    r.transact (encodeWord kmax i) = r.apply i := by
  rw [Regs.transact, decodeWord_encodeWord h]

/-- The length of the layout of an accepted width is at most `TMAX` (R5, R61). -/
theorem codewordLength_le_tmax (h : n ≤ Config.nmax kmax) : codewordLength (parityCount n) ≤ Config.tmax kmax :=
  Nat.sub_le_sub_right (Nat.pow_le_pow_right Nat.two_pos (parityCount_le_of_le_nmax h)) 1

theorem wellFormed_build (h : n ≤ Config.nmax kmax) : wellFormed kmax (.build 0 n) = true := by
  refine (wellFormed_iff _ _).mpr ⟨Nat.two_pow_pos _, ?_⟩
  exact (h.trans (Nat.sub_le _ _)).trans_lt Nat.lt_two_pow_self

theorem wellFormed_encode (h : n ≤ Config.nmax kmax) (hv : v < 2 ^ n) : wellFormed kmax (.encode 0 v) = true := by
  refine (wellFormed_iff _ _).mpr ⟨Nat.two_pow_pos _, ?_⟩
  exact hv.trans_le (Nat.pow_le_pow_right Nat.two_pos (h.trans (Nat.sub_le _ _)))

theorem wellFormed_decode (h : n ≤ Config.nmax kmax) {w : Nat} (hw : w < 2 ^ codewordLength (parityCount n)) :
    wellFormed kmax (.decode (codewordLength (parityCount n)) w) = true := by
  have hT := codewordLength_le_tmax h
  exact (wellFormed_iff _ _).mpr
    ⟨hT.trans_lt (tmax_lt_two_pow_lw kmax), hw.trans_le (Nat.pow_le_pow_right Nat.two_pos hT)⟩

/-- BUILD and ENCODE as command words. -/
theorem runWords_build_encode_eq (h : n ≤ Config.nmax kmax) (hv : v < 2 ^ n) :
    r.runWords [encodeWord kmax (.build 0 n), encodeWord kmax (.encode 0 v)] = (r.build n).encode v := by
  rw [Regs.runWords, List.foldl_cons, transact_encodeWord r (wellFormed_build h), List.foldl_cons,
    transact_encodeWord _ (wellFormed_encode h hv)]
  rfl

/-- BUILD, ENCODE and DECODE as command words: the ENCODE in between leaves the layout (R74). -/
theorem runWords_build_encode_decode_eq (h : n ≤ Config.nmax kmax) (hv : v < 2 ^ n) {w : Nat}
    (hw : w < 2 ^ codewordLength (parityCount n)) :
    r.runWords [encodeWord kmax (.build 0 n), encodeWord kmax (.encode 0 v),
      encodeWord kmax (.decode (codewordLength (parityCount n)) w)] =
        (r.build n).decode (codewordLength (parityCount n)) w := by
  rw [Regs.runWords, List.foldl_cons, transact_encodeWord r (wellFormed_build h), List.foldl_cons,
    transact_encodeWord _ (wellFormed_encode h hv), List.foldl_cons, transact_encodeWord _ (wellFormed_decode h hw)]
  exact apply_eq_of_sameLayout (encode_sameLayout (r.build n) v) _

/-- BUILD and ENCODE leave the codeword (R117). -/
theorem response_build_encode (h : n ≤ Config.nmax kmax) (hv : v < 2 ^ n) :
    (r.runWords [encodeWord kmax (.build 0 n), encodeWord kmax (.encode 0 v)]).Response .ok
      (encodeUnit (parityCount n) n v) 0 0 := by
  obtain ⟨hlv, hln, hlk, -, -⟩ := build_layout r h
  have hresp := encode_response (build_layoutOk r h) hlv (arg := v) (by rwa [hln])
  rw [hlk, hln] at hresp
  rwa [runWords_build_encode_eq r h hv]

/-- DECODE of a full-length word after BUILD and ENCODE has the decoder's response (R116). -/
theorem response_build_encode_decode (h : n ≤ Config.nmax kmax) (hv : v < 2 ^ n) {w s c : Nat}
    (hw : w < 2 ^ codewordLength (parityCount n)) (hs : s = syndrome (parityCount n) w) (hc : c = correct w s) :
    (r.runWords [encodeWord kmax (.build 0 n), encodeWord kmax (.encode 0 v),
      encodeWord kmax (.decode (codewordLength (parityCount n)) w)]).Response .ok
        (resultUnit (parityCount n) n c) s c := by
  obtain ⟨hlv, hln, hlk, hlt, -⟩ := build_layout r h
  have hresp := decode_response (build_layoutOk r h) hlv (len := codewordLength (parityCount n)) (arg := w)
    (Nat.le_of_eq hlt.symm) (Nat.mod_eq_of_lt hw).symm (by rwa [hlk]) hc
  rw [hlk, hln] at hresp
  rwa [runWords_build_encode_decode_eq r h hv hw]

end Registers

/-- Settles O47: the codeword has syndrome 0, so nothing is corrected. -/
theorem roundTrip : Obligations.RoundTrip := by
  unfold Obligations.RoundTrip
  intro kmax n v r _ h hv
  refine ⟨encodeUnit (parityCount n) n v, encodeUnit_lt n v _, response_build_encode r h hv, ?_⟩
  have hresp := response_build_encode_decode r h hv (encodeUnit_lt n v _) (syndrome_encodeUnit n v).symm rfl
  rwa [correct_zero, resultUnit_encodeUnit (le_dataCount_parityCount n) hv] at hresp

/-- Settles O48: the syndrome of the flipped codeword is the position, and flipping it again gives the codeword. -/
theorem singleErrorCorrection : Obligations.SingleErrorCorrection := by
  unfold Obligations.SingleErrorCorrection
  intro kmax n v i r _ h hv h1 hT
  refine ⟨encodeUnit (parityCount n) n v, response_build_encode r h hv, ?_⟩
  have hs : i = syndrome (parityCount n) (flip (encodeUnit (parityCount n) n v) i) := by
    rw [syndrome_flip h1 hT, syndrome_encodeUnit, Nat.zero_xor]
  have hc : encodeUnit (parityCount n) n v = correct (flip (encodeUnit (parityCount n) n v) i) i := by
    rw [correct_of_ne (Nat.ne_of_gt h1), flip_flip]
  have hresp := response_build_encode_decode r h hv (flip_lt (encodeUnit_lt n v _) h1 hT) hs hc
  rwa [resultUnit_encodeUnit (le_dataCount_parityCount n) hv] at hresp

/-- A position of a word with three different positions flipped. -/
theorem pos_flip_flip_flip {c i j l x : Nat} (hi : 1 ≤ i) (hj : 1 ≤ j) (hl : 1 ≤ l) (hx : 1 ≤ x) (hij : i ≠ j)
    (hil : i ≠ l) (hjl : j ≠ l) : pos (flip (flip (flip c i) j) l) x = (pos c x ^^ decide (x ∈ [i, j, l])) := by
  rw [pos_flip _ _ _ hl hx, pos_flip _ _ _ hj hx, pos_flip _ _ _ hi hx]
  by_cases hxi : i = x
  · subst hxi
    simp [hij.symm, hil.symm]
  · by_cases hxj : j = x
    · subst hxj
      simp [hij, hij.symm, hjl.symm]
    · simp [hxi, hxj, Ne.symm hxi, Ne.symm hxj, eq_comm]

/-- Under three different flips the decoder still returns the data unit exactly if none of them is at one of its data
positions (R117). -/
theorem resultUnit_three_flips_eq_iff {k n v i j l : Nat} (hn : n ≤ dataCount k) (hv : v < 2 ^ n) (hi : 1 ≤ i)
    (hj : 1 ≤ j) (hl : 1 ≤ l) (hij : i ≠ j) (hil : i ≠ l) (hjl : j ≠ l) :
    resultUnit k n (flip (flip (flip (encodeUnit k n v) i) j) l) = v ↔
      ∀ x ∈ [i, j, l], ∀ m < n, dataPos k m ≠ some x := by
  have hbit : ∀ m x, m < n → dataPos k m = some x →
      (pos (flip (flip (flip (encodeUnit k n v) i) j) l) x = v.testBit m ↔ x ∉ [i, j, l]) := fun m x hm hx => by
    rw [pos_flip_flip_flip hi hj hl (dataPos_bounds hx).1 hij hil hjl, pos_encodeUnit_of_dataPos n v hx,
      decide_eq_true hm, Bool.true_and]
    cases v.testBit m <;> simp
  rw [resultUnit_eq_iff hn hv]
  constructor
  · exact fun h x hx m hm hpos => (hbit m x hm hpos).mp (h m x hm hpos) hx
  · exact fun h m x hm hpos => (hbit m x hm hpos).mpr fun hx => h x hx m hm hpos

/-- Adding an index other than 0 gives another index. -/
theorem ne_xor_of_ne_zero {i j : Nat} (hj : j ≠ 0) : i ≠ i ^^^ j := fun h =>
  hj (Nat.xor_right_injective (h.symm.trans (Nat.xor_zero i).symm))

/-- Settles O49: the syndrome is `i ^ j`, the index of a third position, which is flipped as well. -/
theorem doubleErrorMiscorrects : Obligations.DoubleErrorMiscorrects := by
  unfold Obligations.DoubleErrorMiscorrects
  intro kmax n v i j r _ h hv hi1 hiT hj1 hjT hij
  have hs : i ^^^ j = syndrome (parityCount n) (flip (flip (encodeUnit (parityCount n) n v) i) j) := by
    rw [syndrome_flip hj1 hjT, syndrome_flip hi1 hiT, syndrome_encodeUnit, Nat.zero_xor]
  have hne : i ^^^ j ≠ 0 := mt Nat.xor_eq_zero_iff.mp hij
  have hil : i ≠ i ^^^ j := ne_xor_of_ne_zero (Nat.ne_of_gt hj1)
  have hjl : j ≠ i ^^^ j := Nat.xor_comm j i ▸ ne_xor_of_ne_zero (Nat.ne_of_gt hi1)
  have hw := flip_lt (flip_lt (encodeUnit_lt n v _) hi1 hiT) hj1 hjT
  exact ⟨_, _, response_build_encode r h hv,
    response_build_encode_decode r h hv hw hs (correct_of_ne hne).symm,
    resultUnit_three_flips_eq_iff (le_dataCount_parityCount n) hv hi1 hj1 (Nat.one_le_iff_ne_zero.mpr hne) hij hil hjl⟩

end Sys2Proof.Machine

/-! PROOFS. The invariant (spec/10_state.md sections 2 and 3), the frames of the commands and the life of the layout. -/

namespace Sys2Proof.Machine

section Legal
variable {kmax : Nat} {r : Regs kmax}

/-- A response whose values fit the layout and whose corrected word is a codeword, under a legal layout, is legal. -/
theorem ok_of_response {st : Status} {res syn cwc : Nat} (hok : r.LayoutOk) (h : r.Response st res syn cwc)
    (herr : st ≠ .ok → res = 0 ∧ syn = 0 ∧ cwc = 0) (hres : res < 2 ^ r.lt.toNat) (hsyn : syn ≤ r.lt.toNat)
    (hcwc : cwc < 2 ^ r.lt.toNat) (hcode : syndrome r.lk.toNat cwc = 0) : r.Ok := by
  obtain ⟨rfl, rfl, rfl, rfl⟩ := h
  refine ⟨hok, fun hst => ?_, hres, hsyn, hcwc, hcode⟩
  obtain ⟨h1, h2, h3⟩ := herr hst
  exact ⟨BitVec.eq_of_toNat_eq h1, BitVec.eq_of_toNat_eq h2, BitVec.eq_of_toNat_eq h3⟩

/-- A response of zeros is legal under every legal layout. -/
theorem ok_of_zeros {st : Status} (hok : r.LayoutOk) (h : r.Response st 0 0 0) : r.Ok :=
  ok_of_response hok h (fun _ => ⟨rfl, rfl, rfl⟩) (Nat.two_pow_pos _) (Nat.zero_le _) (Nat.two_pow_pos _)
    (syndrome_zero _)

/-- The reset registers hold no layout and no response (R26). -/
theorem reset_ok (kmax : Nat) : (Regs.reset kmax).Ok :=
  ok_of_zeros ⟨fun _ => ⟨rfl, rfl, rfl⟩, fun h => by cases h⟩ ⟨rfl, rfl, rfl, rfl⟩

/-- An error leaves the layout and zeros (R131). -/
theorem raise_ok (hok : r.LayoutOk) (e : Status) : (r.raise e).Ok :=
  ok_of_zeros (layoutOk_of_sameLayout (raise_sameLayout r e) hok) ⟨rfl, rfl, rfl, rfl⟩

/-- A BUILD that is accepted installs a legal layout and leaves zeros (R73). -/
theorem build_ok {n : Nat} (h : n ≤ Config.nmax kmax) : (r.build n).Ok := by
  obtain ⟨-, -, -, -, hresp⟩ := build_layout r h
  exact ok_of_zeros (build_layoutOk r h) hresp

/-- An ENCODE that is accepted leaves a codeword within the layout's length (R96). -/
theorem encode_ok {arg : Nat} (hok : r.LayoutOk) (hlv : r.lv = true) (hd : arg < 2 ^ r.ln.toNat) :
    (r.encode arg).Ok := by
  obtain ⟨-, hT⟩ := layout_of_lv hok hlv
  obtain ⟨-, -, -, hlt⟩ := encode_sameLayout r arg
  refine ok_of_response (layoutOk_of_sameLayout (encode_sameLayout r arg) hok) (encode_response hok hlv hd) (absurd rfl)
    ?_ (Nat.zero_le _) (Nat.two_pow_pos _) (syndrome_zero _)
  rw [hlt, hT]
  exact encodeUnit_lt _ arg _

/-- A DECODE that is accepted leaves results within the layout's length and a corrected codeword (R116, R118). -/
theorem decode_ok {len arg : Nat} (hok : r.LayoutOk) (hlv : r.lv = true) (hL : len ≤ r.lt.toNat) :
    (r.decode len arg).Ok := by
  obtain ⟨hres, hsyn, hcwc, hcode⟩ := decoded_fits hok hlv (mod_lt_of_le_lt hL) (correct (arg % 2 ^ len) _)
  obtain ⟨-, -, hlk, hlt⟩ := decode_sameLayout r len arg
  rw [← hlt] at hres hsyn hcwc
  exact ok_of_response (layoutOk_of_sameLayout (decode_sameLayout r len arg) hok)
    (decode_response hok hlv hL rfl rfl rfl) (absurd rfl) hres hsyn hcwc (by rwa [hlk])

/-- Every command leaves legal registers, if the layout it finds is legal. -/
theorem apply_ok (hok : r.LayoutOk) (i : Instr) : (r.apply i).Ok := by
  obtain ⟨e, -, -, he⟩ | ⟨-, hst⟩ := apply_cases i r
  · rw [he]
    exact raise_ok hok e
  · cases i with
    | build len arg =>
      refine build_ok (Nat.not_lt.mp fun h => ?_)
      rw [apply_build_st, if_pos h] at hst
      cases hst
    | encode len arg =>
      cases hlv : r.lv with
      | false =>
        rw [apply_encode_st, if_pos hlv] at hst
        cases hst
      | true => exact encode_ok hok hlv ((encode_st_eq_ok_iff r hlv).mp hst)
    | decode len arg =>
      obtain ⟨hlv, hL⟩ := lv_and_le_of_decode_ok r hst
      exact decode_ok hok hlv hL
    | reserved len arg => cases hst

end Legal

/-- Settles O24: a command reads the layout only, and each outcome is legal under the layout that it leaves. -/
theorem everyWordKeepsRegistersLegal : Obligations.EveryWordKeepsRegistersLegal := by
  unfold Obligations.EveryWordKeepsRegistersLegal
  rintro kmax r w - ⟨hok, -⟩
  exact apply_ok hok _

/-- One edge keeps a block legal, in each of its cases. -/
theorem clock_ok {kmax : Nat} {b : Block kmax} (h : b.Ok) : b.clock.Ok := by
  obtain ⟨hregs, -⟩ := h
  obtain ⟨-, hc⟩ | ⟨-, -, w, -, hc⟩ | ⟨-, -, _, -, hc⟩ | ⟨-, -, -, hc⟩ | ⟨-, -, -, hc⟩ := clock_cases b
  case inl => exact hc ▸ ⟨reset_ok kmax, fun _ => rfl⟩
  case inr.inl =>
    obtain ⟨hlayout, -⟩ := hregs
    exact hc ▸ ⟨apply_ok hlayout _, fun _ => rfl⟩
  case inr.inr.inl | inr.inr.inr.inl | inr.inr.inr.inr => exact hc ▸ ⟨hregs, Bool.false_ne_true.elim⟩

/-- Settles O23: a step is an edge of the block of the reference size. -/
theorem stepKeepsLegal : Obligations.StepKeepsLegal := by
  unfold Obligations.StepKeepsLegal
  refine ⟨fun s t hok h => ?_, fun kmax b _ hok => clock_ok hok⟩
  rw [State.Ok, step_next h]
  exact clock_ok hok

/-- Settles O22: the reset registers are legal, and there is no pulse of `rsp_valid`. -/
theorem resetIsLegal : Obligations.ResetIsLegal := by
  unfold Obligations.ResetIsLegal
  exact ⟨⟨reset_ok _, fun _ => rfl⟩, fun kmax => ⟨reset_ok kmax, fun _ => rfl⟩⟩

/-- A command leaves the layout registers unless it is a BUILD of a width up to `NMAX` (R73, R74). -/
theorem apply_layout_cases {kmax : Nat} (r : Regs kmax) (i : Instr) :
    (r.apply i).SameLayout r ∨ ∃ len arg, i = .build len arg ∧ arg ≤ Config.nmax kmax := by
  cases i with
  | build len arg =>
    rcases Nat.lt_or_ge (Config.nmax kmax) arg with h | h
    · exact .inl (by rw [Regs.apply, build_refused r h]; exact raise_sameLayout r _)
    · exact .inr ⟨len, arg, rfl, h⟩
  | encode len arg => exact .inl (encode_sameLayout r arg)
  | decode len arg => exact .inl (decode_sameLayout r len arg)
  | reserved len arg => exact .inl (reserved_sameLayout r)

/-- Settles O57: completion does the handshake, and only an accepted BUILD writes the layout. -/
theorem commandFrame : Obligations.CommandFrame := by
  unfold Obligations.CommandFrame
  intro i s t h
  obtain rfl := exec_next h
  refine ⟨⟨rfl, rfl, rfl⟩, fun hne => ?_, fun len arg hi hbig => ?_⟩
  · exact (apply_layout_cases s.regs i).resolve_right fun ⟨len, arg, hi, _⟩ => hne len arg hi
  · refine (apply_layout_cases s.regs i).resolve_right fun ⟨len', arg', hi', hle⟩ => ?_
    obtain ⟨-, rfl⟩ := Instr.build.inj (hi.symm.trans hi')
    exact Nat.not_lt.mpr hle hbig

/-- Settles O52: the reserved opcode raises its error. -/
theorem reservedCompletes : Obligations.ReservedCompletes := by
  unfold Obligations.ReservedCompletes
  exact fun s len arg => ⟨_, exec_eq _ s, rfl, ⟨rfl, rfl, rfl, rfl⟩, reserved_sameLayout s.regs, rfl, rfl, rfl⟩

/-- Settles O25: of everything a step can do only a reset and a completion write registers, and of the commands only an
accepted BUILD writes the layout. -/
theorem layoutChangesOnlyByBuildOrReset : Obligations.LayoutChangesOnlyByBuildOrReset := by
  unfold Obligations.LayoutChangesOnlyByBuildOrReset
  intro s t h
  obtain ⟨hr, ht⟩ | ⟨hr, hf, w, hw, ht⟩ | ⟨hr, hf, w, hw, ht⟩ | ⟨hr, hv, hn, ht⟩ | ⟨hr, hv, hn, ht⟩ := step_cases h
  case inl => exact ⟨by simp [ht, hr], .inr (.inl ⟨hr, by rw [ht, applyReset_regs]⟩)⟩
  case inr.inl =>
    have hregs : t.regs = s.regs.apply (decodeWord Config.refKmax w) := by rw [ht, complete_regs, Regs.transact]
    have hnmax : Config.nmax Config.refKmax = 11 := rfl
    refine ⟨?_, ?_⟩
    · rw [hregs, apply_lv_iff, hnmax]
      simp [hr, hf, hw]
    · rw [hregs, ht, complete_rspValid]
      obtain hsame | ⟨len, arg, hi, hle⟩ := apply_layout_cases s.regs (decodeWord Config.refKmax w)
      · exact .inl hsame
      · obtain ⟨hlv, hln, hlk, hlt, hst, -⟩ := build_layout s.regs hle
        exact .inr (.inr ⟨hr, hf, w, len, arg, hw, hi, hle, by rw [hi]; exact ⟨hlv, hln, hlk, hlt, hst, rfl⟩⟩)
  case inr.inr.inl => exact ⟨by simp [ht, hr, hf], .inl (by rw [ht]; exact sameLayout_refl s.regs)⟩
  case inr.inr.inr.inl | inr.inr.inr.inr =>
    exact ⟨by simp [ht, hr, hn], .inl (by rw [ht]; exact sameLayout_refl s.regs)⟩

end Sys2Proof.Machine
